-- ==== Sys2Proof/Word.lean ====
section
/-! DEFINITION. The basic data of the machine: register names, tokens, the operand of a store.
Values are mathematical integers (spec/00_scope.md rule R7, decision D1), so the word type is `Int`
itself and no synonym stands in its way. -/

namespace Sys2Proof

/-- A token: a sequence of characters (30_encoding.md rule R70). -/
abbrev Token := List Char

/-- The ten named registers, in the order of the register file (10_state.md rule R20). -/
inductive Reg where
  | zero | v0 | a0 | t0 | t1 | t2 | t3 | sp | hi | lo
  deriving DecidableEq, Repr

/-- The register file's order: position `i` holds the register of file index `i` (rule R20). -/
def Reg.all : List Reg := [.zero, .v0, .a0, .t0, .t1, .t2, .t3, .sp, .hi, .lo]

/-- The first operand of `sw`: "value of register rt, OR the literal integer directly"
(30_encoding.md rule R84). `reg` is the kind `SwReg` of rule R75, `lit` the kind `SwLit`. -/
inductive StoreSource where
  | reg (rt : Reg)
  | lit (value : Int)
  deriving DecidableEq, Repr

end Sys2Proof
end

