-- ==== Sys2Proof/Config.lean ====
section
/-! DEFINITION. The constants the source fixes (00_scope.md rule R5) and the parameters the spec
leaves open, as constants with no body: nothing can be proved about their values. -/

namespace Sys2Proof

/-- The two register numbers of the 32-bit rendering that the spec leaves open, `REGNUM_HI` and
`REGNUM_LO`, each in 0..31 (30_encoding.md rule R78, decision D15). -/
structure RegNums where
  hi : BitVec 5
  lo : BitVec 5
  deriving DecidableEq, Repr, Inhabited

namespace Config

/-- `MEMSIZE`: the number of data cells (rule R5). -/
def memSize : Nat := 256

/-- The reset value of `$sp`: `MEMSIZE - 1` (rule R5). -/
def spReset : Int := (memSize : Int) - 1

/-- What a cell that nothing has written reads as: 0, its reset value (10_state.md rules R31, R38). -/
def unlistedCell : Int := 0

/-- `REGNUM_HI` and `REGNUM_LO` of this machine: OPEN (rule R78, log entry 10). -/
opaque regNums : RegNums

/-- The cells an `.asciiz` text stands for when it holds a backslash, a quotation mark or a character
beyond ASCII: OPEN, a parameter of the loader (93_implementation_defined.md entry U8, log entry 12). -/
opaque asciizCodes : Token → List Int

/-- The address `la` takes for a label with the several definitions listed: OPEN, a parameter of the
loader (entry U11, log entry 13). -/
opaque duplicateLabel : List Nat → Nat

/-- Whether a text line with nothing but a label, or nothing but separators, installs an Instruction with an empty mnemonic:
OPEN, a parameter of the loader (entry U9, log entry 14). -/
opaque emptyLineInstalls : Bool

end Config

end Sys2Proof
end

