-- ==== Sys2Proof/Syntax.lean ====
section
/-! DEFINITION. The instructions: the token form the instruction store holds, and the abstract syntax,
one constructor per row of spec/opcode_table.json, arguments in source operand order
(30_encoding.md rules R70, R71, R75). -/

namespace Sys2Proof

/-- An Instruction in token form: "opcode mnemonic plus an ordered list of operand tokens"
(rule R70). This is what `Prog` holds and the engine decodes. -/
structure Instruction where
  mnemonic : Token
  operands : List Token
  deriving DecidableEq, Repr

/-- The instruction kinds of rule R75 that are instructions. Immediates, shift amounts and offsets are
exact integers (rule R80). The two kinds of `sw` are the two forms of its first operand (rule R84). -/
inductive Instr where
  | add (rd rs rt : Reg)
  | sub (rd rs rt : Reg)
  | and (rd rs rt : Reg)
  | or (rd rs rt : Reg)
  | slt (rd rs rt : Reg)
  | mult (rs rt : Reg)
  | sll (rd rt : Reg) (shamt : Int)
  | syscall
  | addi (rt rs : Reg) (imm : Int)
  | slti (rt rs : Reg) (imm : Int)
  | lui (rt : Reg) (imm : Int)
  | lw (rt : Reg) (offset : Int) (base : Reg)
  | sw (src : StoreSource) (offset : Int) (base : Reg)
  deriving DecidableEq, Repr

end Sys2Proof
end

