-- ==== Sys2Proof/Machine/State.lean ====
section
/-! DEFINITION. The state of the machine as plain data (10_state.md), what can stop it, and the state
after reset. -/

namespace Sys2Proof.Machine

/-- The four reasons of a synchronous fault of the hardware (60_exceptions.md rule R190). Taking one is
a next state, rule R198. -/
inductive FaultReason where
  | unknownInstruction
  | memoryFault
  | unknownSyscall
  | malformedOperand
  deriving DecidableEq, Repr

/-- The engine status, the only control state (10_state.md rule R29). -/
inductive Status where
  | running
  | halted
  | faulted (reason : FaultReason)
  deriving DecidableEq, Repr

/-- The events of the log (10_state.md rule R37). -/
inductive Event where
  | outInt (v : Int)
  | outStr (codes : List Int)
  | fault (reason : FaultReason)
  deriving DecidableEq, Repr

/-- Why a step request has no successor: the three terminal conditions (44_step_and_dispatch.md rules
R177, R178, decision D11; log entry 5). Raised by `step` alone, never by an instruction. Safe: the
hardware does nothing there, and the model says that nothing follows. -/
inductive Fault where
  /-- `status = HALTED`. -/
  | runHalted
  /-- `status = FAULTED(reason)`. -/
  | runFaulted
  /-- `status = RUNNING` and no instruction at `pc`: the program ran off its end. -/
  | runExhausted
  deriving DecidableEq, Repr

/-- Why the model gives an instruction no meaning. -/
inductive Refusal where
  /-- Raised by an arm of `exec` for an instruction without a meaning: none in this model. Safe. -/
  | notModelled (mnemonic : String)
  deriving DecidableEq, Repr

/-- The register file (10_state.md rule R20). `$zero` is hard-wired, so it needs no storage: reading and
writing it is rule R21, in `State.reg` and `State.setReg` (log entry 3). -/
structure RegFile where
  v0 : Int
  a0 : Int
  t0 : Int
  t1 : Int
  t2 : Int
  t3 : Int
  sp : Int
  hi : Int
  lo : Int
  deriving DecidableEq, Repr

/-- One listed data cell: its address and its integer (10_state.md rule R32). A cell holds an unbounded
integer, so it is no `Host.Cell` of bytes (log entry 2). -/
abbrev Cell := Nat × Int

/-- The data memory, a list of cells in canonical form (log entry 2): see `Memory.wf`. -/
abbrev Memory := List Cell

/-- The canonical form: addresses strictly rising and below 256, and no cell equal to what an unlisted
address reads as. -/
abbrev Memory.wf (m : Memory) : Prop :=
  m.Pairwise (fun c d => c.1 < d.1) ∧ ∀ c ∈ m, c.1 < Config.memSize ∧ c.2 ≠ Config.unlistedCell

/-- The machine state: the tuple `(x, pc, status, M, Prog, log)` of 10_state.md, and the loader's symbol
table and data pointer, which rule R38 gives reset values. -/
structure State where
  /-- `x`, rule R20. -/
  regs : RegFile
  /-- `pc`, an index into `prog`, rule R25. -/
  pc : Nat
  /-- `status`, rule R29. -/
  status : Status
  /-- `M`, rule R31. -/
  mem : Memory
  /-- `Prog`, rule R33. -/
  prog : List Instruction
  /-- `log`, oldest event first, rule R37. -/
  log : List Event
  /-- The loader's symbol table, oldest definition first, rules R34, R38. -/
  symtab : List (Token × Nat)
  /-- The loader's data pointer, rule R38. -/
  dataPtr : Nat
  deriving DecidableEq, Repr

/-- The machine right after reset (10_state.md rule R38). The log of a newly created machine is empty
(log entry 7); the reset CALL keeps the log, see `State.hostReset`. -/
def State.reset : State where
  regs := { v0 := 0, a0 := 0, t0 := 0, t1 := 0, t2 := 0, t3 := 0, sp := Config.spReset, hi := 0, lo := 0 }
  pc := 0
  status := .running
  mem := []
  prog := []
  log := []
  symtab := []
  dataPtr := 0

end Sys2Proof.Machine
end

