-- ==== Sys2Proof/Machine/Flags.lean ====
section
/-! DEFINITION. The engine has no flags (10_state.md rule R28): comparison results are the integers 0 and 1
in a register. Here are those, and the bits of an integer (00_scope.md rule R8) with the bitwise
operations on them. -/

namespace Sys2Proof.Machine

/-- The result of `slt` and `slti`: "(rs<rt?1:0)", the order of the integers (rules R115, R132). -/
def lessThan (a b : Int) : Int := if a < b then 1 else 0

/-- `bit(v, i) = floor(v / 2^i) mod 2` (rule R8). -/
def bitOf (v : Int) (i : Nat) : Int := v / 2 ^ i % 2

/-- `v[hi:lo] = floor(v / 2^lo) mod 2^(hi-lo+1)` (rule R8). -/
def bitField (v : Int) (hi lo : Nat) : Int := v / 2 ^ lo % 2 ^ (hi - lo + 1)

/-- `v << k` (rule R8). -/
def shiftLeft (v : Int) (k : Nat) : Int := v * 2 ^ k

/-- `v >> k`, arithmetic: it rounds down and keeps the sign (rule R8). -/
def shiftRight (v : Int) (k : Nat) : Int := v / 2 ^ k

/-- `a AND b` on infinite two's complement (rule R8, decision D2). `-(n+1)` has the complemented bits of
`n`, so each case is one operation on naturals. -/
def bitAnd : Int → Int → Int
  | .ofNat m, .ofNat n => .ofNat (m &&& n)
  | .ofNat m, .negSucc n => .ofNat (m ^^^ (m &&& n))
  | .negSucc m, .ofNat n => .ofNat (n ^^^ (n &&& m))
  | .negSucc m, .negSucc n => .negSucc (m ||| n)

/-- `a OR b` on infinite two's complement (rule R8, decision D2). -/
def bitOr : Int → Int → Int
  | .ofNat m, .ofNat n => .ofNat (m ||| n)
  | .ofNat m, .negSucc n => .negSucc (n ^^^ (n &&& m))
  | .negSucc m, .ofNat n => .negSucc (m ^^^ (m &&& n))
  | .negSucc m, .negSucc n => .negSucc (m &&& n)

end Sys2Proof.Machine
end

