-- ==== Sys2Proof/Machine/Ops.lean ====
section
/-! DEFINITION. The named operations every meaning is made of: registers, cells, the log, the three ways
an instruction completes (normal, halt, fault), and reset. -/

namespace Sys2Proof.Machine

/-- The outcome of an instruction or a step. -/
abbrev Result := Host.Outcome State Fault Refusal

/-! ### Registers -/

/-- `x[r]`: "`$zero` always reads 0" (10_state.md rule R21). -/
def State.reg (s : State) : Reg → Int
  | .zero => 0
  | .v0 => s.regs.v0
  | .a0 => s.regs.a0
  | .t0 => s.regs.t0
  | .t1 => s.regs.t1
  | .t2 => s.regs.t2
  | .t3 => s.regs.t3
  | .sp => s.regs.sp
  | .hi => s.regs.hi
  | .lo => s.regs.lo

/-- `x[r] <- v`: a write to `$zero` is dropped (10_state.md rule R21). -/
def State.setReg (s : State) (r : Reg) (v : Int) : State :=
  match r with
  | .zero => s
  | .v0 => { s with regs := { s.regs with v0 := v } }
  | .a0 => { s with regs := { s.regs with a0 := v } }
  | .t0 => { s with regs := { s.regs with t0 := v } }
  | .t1 => { s with regs := { s.regs with t1 := v } }
  | .t2 => { s with regs := { s.regs with t2 := v } }
  | .t3 => { s with regs := { s.regs with t3 := v } }
  | .sp => { s with regs := { s.regs with sp := v } }
  | .hi => { s with regs := { s.regs with hi := v } }
  | .lo => { s with regs := { s.regs with lo := v } }

/-! ### Cells -/

/-- The integer in the cell at `a`; an address not listed reads as its reset value. -/
def Memory.get : Memory → Nat → Int
  | [], _ => Config.unlistedCell
  | (b, w) :: m, a => if a = b then w else Memory.get m a

/-- Writes the cell at `a`, keeping the canonical form: writing the value an unlisted address reads as
removes the entry. -/
def Memory.put : Memory → Nat → Int → Memory
  | [], a, v => if v = Config.unlistedCell then [] else [(a, v)]
  | (b, w) :: m, a, v =>
    if a < b then if v = Config.unlistedCell then (b, w) :: m else (a, v) :: (b, w) :: m
    else if a = b then if v = Config.unlistedCell then m else (a, v) :: m
    else (b, w) :: Memory.put m a v

/-- The bounds check: "index in `[0,256)`", the exact integer address against 0 and 256
(20_memory.md rule R61). -/
def inBounds (addr : Int) : Bool := decide (0 ≤ addr) && decide (addr < Config.memSize)

/-- `MemRead(addr, 1)` of 00_scope.md rule R11. -/
def memRead (m : Memory) (addr : Int) : Except FaultReason Int :=
  if inBounds addr then .ok (Memory.get m addr.toNat) else .error .memoryFault

/-- `MemWrite(addr, 1, v)` of 00_scope.md rule R11. -/
def memWrite (m : Memory) (addr : Int) (v : Int) : Except FaultReason Memory :=
  if inBounds addr then .ok (Memory.put m addr.toNat v) else .error .memoryFault

/-- The string scan of `syscall` service 4 (43_system.md rule R153): the cells from `a` up to the first
zero cell, without it. `fuel` bounds the number of cells read; 257 is never used up, since address 256
faults. -/
def scanString (m : Memory) : Nat → Int → Except FaultReason (List Int)
  | 0, _ => .error .memoryFault
  | fuel + 1, a =>
    match memRead m a with
    | .error r => .error r
    | .ok c =>
      if c = 0 then .ok []
      else
        match scanString m fuel (a + 1) with
        | .error r => .error r
        | .ok cs => .ok (c :: cs)

/-! ### The log, and the ways to complete -/

/-- `emit(e)`: appends one event (00_scope.md rules R10, R11). -/
def State.emit (s : State) (e : Event) : State := { s with log := s.log ++ [e] }

/-- Normal completion (44_step_and_dispatch.md rule R174): `pc <- pc + 1`. -/
def State.complete (s : State) : State := { s with pc := s.pc + 1 }

/-- Halt (43_system.md rule R152). -/
def State.halt (s : State) : State := { s with status := .halted, pc := s.prog.length }

/-- TAKING A FAULT (60_exceptions.md rule R198): the status becomes `FAULTED(reason)`, `pc` becomes
`len(Prog)`, one `Fault(reason)` event is logged; registers and memory stay as they are, and nothing is
saved anywhere. -/
def State.takeFault (s : State) (reason : FaultReason) : State :=
  { s with status := .faulted reason, pc := s.prog.length, log := s.log ++ [.fault reason] }

/-- The host's `reset()` call, the only way out of `HALTED` and `FAULTED` beside load, since there is no
trap return (60_exceptions.md rule R201): every piece of state takes its reset value but the log, which
is kept (70_reset_and_hazards.md rule R221). -/
def State.hostReset (s : State) : State := { State.reset with log := s.log }

/-- How an instruction ends that may raise a fault: with its effect and normal completion, or with fault
entry from the state before it, so that a faulting instruction changes no register and no cell
(00_scope.md rule R11, 60_exceptions.md rule R198). -/
def finish (s : State) : Except FaultReason State → Result
  | .ok t => .next t.complete
  | .error reason => .next (s.takeFault reason)

/-- How an instruction ends that only writes the register `rd`: the write and normal completion. -/
def writeBack (s : State) (rd : Reg) (v : Int) : Result := .next (s.setReg rd v).complete

end Sys2Proof.Machine
end

