-- ==== Sys2Proof/Machine/Operands.lean ====
section
/-! DEFINITION. The operand forms as values: the one addressing mode, the two forms of a stored value, and
the shift amount. -/

namespace Sys2Proof.Machine

/-- "addr = offset + base": the exact integer sum (20_memory.md rule R51). -/
def effectiveAddress (s : State) (offset : Int) (base : Reg) : Int := offset + s.reg base

/-- The value `sw` stores: the register's, or the literal itself (30_encoding.md rule R84). -/
def storeValue (s : State) : StoreSource → Int
  | .reg rt => s.reg rt
  | .lit v => v

/-- The shift amount of `sll`: exact, and a negative one raises `MalformedOperand`
(40_arithmetic_logic.md rule R117, decision D4). -/
def shiftAmount (shamt : Int) : Except FaultReason Nat :=
  if shamt < 0 then .error .malformedOperand else .ok shamt.toNat

end Sys2Proof.Machine
end

