-- ==== Sys2Proof/Machine/Arithmetic.lean ====
section
/-! DEFINITION. Register arithmetic and logic: add, sub, and, or, slt, mult, sll
(40_arithmetic_logic.md). -/

namespace Sys2Proof.Machine

/-- `add rd, rs, rt` (rule R111). -/
def execAdd (rd rs rt : Reg) (s : State) : Result := writeBack s rd (s.reg rs + s.reg rt)

/-- `sub rd, rs, rt` (rule R112): `rs` is the minuend. -/
def execSub (rd rs rt : Reg) (s : State) : Result := writeBack s rd (s.reg rs - s.reg rt)

/-- `and rd, rs, rt` (rule R113). -/
def execAnd (rd rs rt : Reg) (s : State) : Result := writeBack s rd (bitAnd (s.reg rs) (s.reg rt))

/-- `or rd, rs, rt` (rule R114). -/
def execOr (rd rs rt : Reg) (s : State) : Result := writeBack s rd (bitOr (s.reg rs) (s.reg rt))

/-- `slt rd, rs, rt` (rule R115). -/
def execSlt (rd rs rt : Reg) (s : State) : Result := writeBack s rd (lessThan (s.reg rs) (s.reg rt))

/-- `mult rs, rt` (rule R116): the exact product, split at bit 32; both operands are read before `$LO`
and `$HI` are written. -/
def execMult (rs rt : Reg) (s : State) : Result :=
  let p := s.reg rs * s.reg rt
  .next ((s.setReg .lo (bitField p 31 0)).setReg .hi (shiftRight p 32)).complete

/-- `sll rd, rt, shamt` (rule R117). -/
def execSll (rd rt : Reg) (shamt : Int) (s : State) : Result :=
  finish s (do
    let k ← shiftAmount shamt
    pure (s.setReg rd (shiftLeft (s.reg rt) k)))

end Sys2Proof.Machine
end

