-- ==== Sys2Proof/Machine/Immediate.lean ====
section
/-! DEFINITION. The immediate instructions: addi, slti, lui (41_immediate.md). The immediate is the exact
integer of its token (30_encoding.md rule R80). -/

namespace Sys2Proof.Machine

/-- `addi rt, rs, imm` (rule R131). -/
def execAddi (rt rs : Reg) (imm : Int) (s : State) : Result := writeBack s rt (s.reg rs + imm)

/-- `slti rt, rs, imm` (rule R132). -/
def execSlti (rt rs : Reg) (imm : Int) (s : State) : Result := writeBack s rt (lessThan (s.reg rs) imm)

/-- `lui rt, imm` (rule R133): an assignment, the old value of `rt` is discarded. -/
def execLui (rt : Reg) (imm : Int) (s : State) : Result := writeBack s rt (shiftLeft imm 16)

end Sys2Proof.Machine
end

