-- ==== Sys2Proof/Machine/LoadStore.lean ====
section
/-! DEFINITION. Loads and stores: lw, sw (42_load_store.md). -/

namespace Sys2Proof.Machine

/-- `lw rt, offset(base)` (rule R141): the bounds check does not depend on the destination. -/
def execLw (rt : Reg) (offset : Int) (base : Reg) (s : State) : Result :=
  finish s (do
    let v ← memRead s.mem (effectiveAddress s offset base)
    pure (s.setReg rt v))

/-- `sw rt, offset(base)` and `sw literal, offset(base)` (rule R142). -/
def execSw (src : StoreSource) (offset : Int) (base : Reg) (s : State) : Result :=
  finish s (do
    let m ← memWrite s.mem (effectiveAddress s offset base) (storeValue s src)
    pure { s with mem := m })

end Sys2Proof.Machine
end

