-- ==== Sys2Proof/WellFormed.lean ====
section
/-! DEFINITION. What the checks are: of a token and an Instruction (30_encoding.md rule R70), of an
instruction that a 32-bit word can carry without loss (rules R81, R82, R84, R89), and of the two open
register numbers. Execution asks for none of them: it takes the exact token form. -/

namespace Sys2Proof

/-- White space between tokens (rule R70, R95): space, tab, carriage return, line feed. -/
def isSpace (c : Char) : Bool := c == ' ' || c == '\t' || c == '\r' || c == '\n'

/-- What separates tokens on an instruction line: "commas and parentheses", and white space
(rule R95). -/
def isSeparator (c : Char) : Bool := isSpace c || c == ',' || c == '(' || c == ')'

/-- "A token is a non-empty string without whitespace, comma or parenthesis" (rule R70). -/
def Token.wf (t : Token) : Bool := !t.isEmpty && t.all (fun c => !isSeparator c)

/-- An Instruction is made of tokens (rule R70). -/
def Instruction.wf (ins : Instruction) : Bool :=
  Token.wf ins.mnemonic && ins.operands.all Token.wf

/-- The immediates a reader of the word gets back: `-32768 <= n <= 32767` (rule R81). -/
def immFits (n : Int) : Bool := decide (-32768 ≤ n) && decide (n ≤ 32767)

/-- The shift amounts the rendering has a field for: 0 to 31 (rule R82). -/
def shamtFits (n : Int) : Bool := decide (0 ≤ n) && decide (n ≤ 31)

/-- Only the register form of `sw` has a rendering (rule R84). -/
def StoreSource.isReg : StoreSource → Bool
  | .reg _ => true
  | .lit _ => false

/-- Well-formed for the 32-bit rendering: the word carries the whole instruction. -/
def Instr.wf : Instr → Bool
  | .add _ _ _ => true
  | .sub _ _ _ => true
  | .and _ _ _ => true
  | .or _ _ _ => true
  | .slt _ _ _ => true
  | .mult _ _ => true
  | .sll _ _ shamt => shamtFits shamt
  | .syscall => true
  | .addi _ _ imm => immFits imm
  | .slti _ _ imm => immFits imm
  | .lui _ imm => immFits imm
  | .lw _ offset _ => immFits offset
  | .sw src offset _ => src.isReg && immFits offset

/-- The register numbers the rendering uses for the other eight registers (rule R78). -/
def fixedRegNums : List (BitVec 5) := [0, 2, 4, 8, 9, 10, 11, 29]

/-- The two open numbers collide with no other register's number. The spec does not promise it:
"any value 0 to 31" (rule R78). -/
def RegNums.wf (p : RegNums) : Bool :=
  decide (p.hi ≠ p.lo) && decide (p.hi ∉ fixedRegNums) && decide (p.lo ∉ fixedRegNums)

end Sys2Proof
end

