-- ==== Sys2Proof/Decode.lean ====
section
/-! DEFINITION. Decoding: of the token form, which is what the engine decodes (30_encoding.md rules
R70 to R75, R84), and of a word of the 32-bit rendering, which the hardware itself never does (rule
R89; log entry 9). After each, its encoder: the tokens of an instruction, and the rendering of rules
R76 to R87. -/

namespace Sys2Proof

/-! ### Integer literals (rule R74) -/

/-- The value of a decimal digit, and nothing for another character. -/
def digitValue (c : Char) : Option Nat :=
  if 48 ≤ c.toNat ∧ c.toNat ≤ 57 then some (c.toNat - 48) else none

/-- Reads decimal digits onto the number `n` already read. -/
def digitsOnto : Nat → List Char → Option Nat
  | n, [] => some n
  | n, c :: cs =>
    match digitValue c with
    | some d => digitsOnto (10 * n + d) cs
    | none => none

/-- One or more decimal digits. -/
def naturalLiteral : List Char → Option Nat
  | [] => none
  | c :: cs => digitsOnto 0 (c :: cs)

/-- `int(tok)` of rule R74: an optional single sign, then one or more decimal digits, any magnitude.
`none` is `raise MalformedOperand`. -/
def intToken : Token → Option Int
  | [] => none
  | c :: cs =>
    if c = '-' then (naturalLiteral cs).map (fun n => -(n : Int))
    else if c = '+' then (naturalLiteral cs).map (fun n => (n : Int))
    else (naturalLiteral (c :: cs)).map (fun n => (n : Int))

/-! ### Registers (rule R73) -/

/-- The spelling of a register (rules R20, R73). -/
def Reg.name : Reg → Token
  | .zero => "$zero".toList
  | .v0 => "$v0".toList
  | .a0 => "$a0".toList
  | .t0 => "$t0".toList
  | .t1 => "$t1".toList
  | .t2 => "$t2".toList
  | .t3 => "$t3".toList
  | .sp => "$sp".toList
  | .hi => "$HI".toList
  | .lo => "$LO".toList

/-- `reg(tok)` of rule R73: exact, case-sensitive. `none` is `raise MalformedOperand`. -/
def regToken (t : Token) : Option Reg := Reg.all.find? (fun r => r.name == t)

/-- The first operand of `sw`: a register name, else an integer literal (rule R84). -/
def storeSourceToken (t : Token) : Option StoreSource :=
  match regToken t with
  | some r => some (.reg r)
  | none => (intToken t).map .lit

/-! ### Operand shapes (rules R71, R72 steps 2 and 3): the count must be exact -/

/-- Shapes R, R, R. -/
def operandsRRR (mk : Reg → Reg → Reg → Instr) : List Token → Option Instr
  | [a, b, c] => do
    let x ← regToken a
    let y ← regToken b
    let z ← regToken c
    pure (mk x y z)
  | _ => none

/-- Shapes R, R. -/
def operandsRR (mk : Reg → Reg → Instr) : List Token → Option Instr
  | [a, b] => do
    let x ← regToken a
    let y ← regToken b
    pure (mk x y)
  | _ => none

/-- Shapes R, R, I. -/
def operandsRRI (mk : Reg → Reg → Int → Instr) : List Token → Option Instr
  | [a, b, c] => do
    let x ← regToken a
    let y ← regToken b
    let n ← intToken c
    pure (mk x y n)
  | _ => none

/-- Shapes R, I. -/
def operandsRI (mk : Reg → Int → Instr) : List Token → Option Instr
  | [a, b] => do
    let x ← regToken a
    let n ← intToken b
    pure (mk x n)
  | _ => none

/-- Shapes R, I, R. -/
def operandsRIR (mk : Reg → Int → Reg → Instr) : List Token → Option Instr
  | [a, b, c] => do
    let x ← regToken a
    let n ← intToken b
    let y ← regToken c
    pure (mk x n y)
  | _ => none

/-- Shapes R|I, I, R. -/
def operandsSIR (mk : StoreSource → Int → Reg → Instr) : List Token → Option Instr
  | [a, b, c] => do
    let x ← storeSourceToken a
    let n ← intToken b
    let y ← regToken c
    pure (mk x n y)
  | _ => none

/-- No operands. -/
def operandsNone (i : Instr) : List Token → Option Instr
  | [] => some i
  | _ => none

/-- The thirteen executable mnemonics with their operand decoders (rule R71). -/
def mnemonicTable : List (Token × (List Token → Option Instr)) :=
  [ ("add".toList, operandsRRR .add),
    ("sub".toList, operandsRRR .sub),
    ("and".toList, operandsRRR .and),
    ("or".toList, operandsRRR .or),
    ("slt".toList, operandsRRR .slt),
    ("mult".toList, operandsRR .mult),
    ("sll".toList, operandsRRI .sll),
    ("addi".toList, operandsRRI .addi),
    ("slti".toList, operandsRRI .slti),
    ("lui".toList, operandsRI .lui),
    ("lw".toList, operandsRIR .lw),
    ("sw".toList, operandsSIR .sw),
    ("syscall".toList, operandsNone .syscall) ]

/-- The results of decoding (rule R75): an instruction, or one of the two results that are none, each
with what it rejects. -/
inductive Kind where
  | instr (i : Instr)
  | unknown (mnemonic : Token)
  | malformed (mnemonic : Token) (operands : List Token)
  deriving DecidableEq, Repr

/-- Decoding an Instruction (rule R72): the mnemonic, then the operand count, then the operands left
to right. It reads no machine state. -/
def decode (ins : Instruction) : Kind :=
  match mnemonicTable.lookup ins.mnemonic with
  | none => .unknown ins.mnemonic
  | some operands =>
    match operands ins.operands with
    | some i => .instr i
    | none => .malformed ins.mnemonic ins.operands

/-! ### The token encoder -/

/-- The decimal numeral of `n`, most significant digit first, given `fuel` at least its number of
digits less one. -/
def naturalDigits : Nat → Nat → List Char
  | 0, n => [Char.ofNat (48 + n % 10)]
  | fuel + 1, n =>
    if n < 10 then [Char.ofNat (48 + n)]
    else naturalDigits fuel (n / 10) ++ [Char.ofNat (48 + n % 10)]

/-- The decimal numeral of a natural number (rules R74, R96). -/
def naturalNumeral (n : Nat) : Token := naturalDigits n n

/-- The decimal numeral of an integer (rule R74). -/
def intNumeral : Int → Token
  | .ofNat n => naturalNumeral n
  | .negSucc n => '-' :: naturalNumeral (n + 1)

/-- The token of a store's first operand (rule R84). -/
def StoreSource.token : StoreSource → Token
  | .reg r => r.name
  | .lit v => intNumeral v

/-- The token form of an instruction, operands in source order (rules R71, R98). -/
def Instr.tokens : Instr → Instruction
  | .add rd rs rt => ⟨"add".toList, [rd.name, rs.name, rt.name]⟩
  | .sub rd rs rt => ⟨"sub".toList, [rd.name, rs.name, rt.name]⟩
  | .and rd rs rt => ⟨"and".toList, [rd.name, rs.name, rt.name]⟩
  | .or rd rs rt => ⟨"or".toList, [rd.name, rs.name, rt.name]⟩
  | .slt rd rs rt => ⟨"slt".toList, [rd.name, rs.name, rt.name]⟩
  | .mult rs rt => ⟨"mult".toList, [rs.name, rt.name]⟩
  | .sll rd rt shamt => ⟨"sll".toList, [rd.name, rt.name, intNumeral shamt]⟩
  | .syscall => ⟨"syscall".toList, []⟩
  | .addi rt rs imm => ⟨"addi".toList, [rt.name, rs.name, intNumeral imm]⟩
  | .slti rt rs imm => ⟨"slti".toList, [rt.name, rs.name, intNumeral imm]⟩
  | .lui rt imm => ⟨"lui".toList, [rt.name, intNumeral imm]⟩
  | .lw rt offset base => ⟨"lw".toList, [rt.name, intNumeral offset, base.name]⟩
  | .sw src offset base => ⟨"sw".toList, [src.token, intNumeral offset, base.name]⟩

/-! ### The 32-bit rendering: register numbers, opcodes, functs (rules R78, R85) -/

/-- `REGNUM` of rule R78, over the two open numbers. -/
def RegNums.number (p : RegNums) : Reg → BitVec 5
  | .zero => 0
  | .v0 => 2
  | .a0 => 4
  | .t0 => 8
  | .t1 => 9
  | .t2 => 10
  | .t3 => 11
  | .sp => 29
  | .hi => p.hi
  | .lo => p.lo

/-- The register a five-bit field names: the eight fixed numbers first, then the open ones
(log entry 10). -/
def RegNums.register (p : RegNums) (f : BitVec 5) : Option Reg :=
  if f = 0 then some .zero
  else if f = 2 then some .v0
  else if f = 4 then some .a0
  else if f = 8 then some .t0
  else if f = 9 then some .t1
  else if f = 10 then some .t2
  else if f = 11 then some .t3
  else if f = 29 then some .sp
  else if f = p.hi then some .hi
  else if f = p.lo then some .lo
  else none

/-- `OP_SPECIAL`. -/
def opSpecial : BitVec 6 := 0b000000
/-- `OP_ADDI`. -/
def opAddi : BitVec 6 := 0b001000
/-- `OP_SLTI`. -/
def opSlti : BitVec 6 := 0b001010
/-- `OP_LUI`. -/
def opLui : BitVec 6 := 0b001111
/-- `OP_LW`. -/
def opLw : BitVec 6 := 0b100011
/-- `OP_SW`. -/
def opSw : BitVec 6 := 0b101011
/-- `F_SLL`. -/
def functSll : BitVec 6 := 0b000000
/-- `F_SYSCALL`. -/
def functSyscall : BitVec 6 := 0b001100
/-- `F_MULT`. -/
def functMult : BitVec 6 := 0b011000
/-- `F_ADD`. -/
def functAdd : BitVec 6 := 0b100000
/-- `F_SUB`. -/
def functSub : BitVec 6 := 0b100010
/-- `F_AND`. -/
def functAnd : BitVec 6 := 0b100100
/-- `F_OR`. -/
def functOr : BitVec 6 := 0b100101
/-- `F_SLT`. -/
def functSlt : BitVec 6 := 0b101010

/-! ### Decoding a word: the inverse of the rendering (log entry 9) -/

/-- The signed immediate a reader recovers: `sext_16(w[15:0])` (rules R9, R81). -/
def signedImm (f : BitVec 16) : Int := f.toInt

/-- The R-type and `syscall` words (opcode 0), told apart by funct; unused fields must be zero
(rules R77, R79). -/
def decodeSpecial (p : RegNums) (rs rt rd shamt : BitVec 5) (funct : BitVec 6) : Option Instr :=
  if funct = functSyscall then
    if rs = 0 ∧ rt = 0 ∧ rd = 0 ∧ shamt = 0 then some .syscall else none
  else if funct = functSll then
    if rs = 0 then do
      let y ← p.register rt
      let x ← p.register rd
      pure (.sll x y shamt.toNat)
    else none
  else if shamt = 0 then do
    let y ← p.register rs
    let z ← p.register rt
    if funct = functMult then
      if rd = 0 then pure (.mult y z) else none
    else do
      let x ← p.register rd
      if funct = functAdd then pure (.add x y z)
      else if funct = functSub then pure (.sub x y z)
      else if funct = functAnd then pure (.and x y z)
      else if funct = functOr then pure (.or x y z)
      else if funct = functSlt then pure (.slt x y z)
      else none
  else none

/-- The I-type words, told apart by opcode (rules R77, R79). -/
def decodeImmediate (p : RegNums) (op : BitVec 6) (rs rt : BitVec 5) (imm : BitVec 16) :
    Option Instr :=
  if op = opAddi then do
    let y ← p.register rs
    let x ← p.register rt
    pure (.addi x y (signedImm imm))
  else if op = opSlti then do
    let y ← p.register rs
    let x ← p.register rt
    pure (.slti x y (signedImm imm))
  else if op = opLui then
    if rs = 0 then do
      let x ← p.register rt
      pure (.lui x (signedImm imm))
    else none
  else if op = opLw then do
    let y ← p.register rs
    let x ← p.register rt
    pure (.lw x (signedImm imm) y)
  else if op = opSw then do
    let y ← p.register rs
    let x ← p.register rt
    pure (.sw (.reg x) (signedImm imm) y)
  else none

/-- The instruction a word of the rendering stands for; `none` for a word that renders no
instruction (rule R89). -/
def decodeWord (p : RegNums) (w : BitVec 32) : Option Instr :=
  let op := w.extractLsb' 26 6
  let rs := w.extractLsb' 21 5
  let rt := w.extractLsb' 16 5
  if op = opSpecial then
    decodeSpecial p rs rt (w.extractLsb' 11 5) (w.extractLsb' 6 5) (w.extractLsb' 0 6)
  else decodeImmediate p op rs rt (w.extractLsb' 0 16)

/-- The decoder on a word numbered as spec/opcode_table.json numbers it; every row is one word of 32
bits, so the bits above `nbits` are zero. -/
def decodeTableWord (nbits w : Nat) : Option Instr :=
  decodeWord Config.regNums (BitVec.ofNat 32 (w % 2 ^ nbits))

/-! ### The binary encoder (rules R76 to R82, R87) -/

/-- A rendered instruction: the three layouts of rule R77, field by field. -/
inductive Rendering where
  | rType (opcode : BitVec 6) (rs rt rd shamt : BitVec 5) (funct : BitVec 6)
  | iType (opcode : BitVec 6) (rs rt : BitVec 5) (immediate : BitVec 16)
  | syscallType (opcode : BitVec 6) (funct : BitVec 6)
  deriving DecidableEq, Repr

/-- The 32 bits, most significant field first (rules R9, R77). -/
def Rendering.word : Rendering → BitVec 32
  | .rType op rs rt rd shamt funct => op ++ rs ++ rt ++ rd ++ shamt ++ funct
  | .iType op rs rt imm => op ++ rs ++ rt ++ imm
  | .syscallType op funct => op ++ 0#20 ++ funct

/-- A field as an unsigned binary numeral of exactly its width, most significant bit first
(rule R76). -/
def fieldText (w : Nat) (f : BitVec w) : List Char :=
  (List.range w).reverse.map (fun i => if f.getLsbD i then '1' else '0')

/-- The groups of the bit string, in the order of rule R77. -/
def Rendering.groups : Rendering → List (List Char)
  | .rType op rs rt rd shamt funct =>
    [fieldText 6 op, fieldText 5 rs, fieldText 5 rt, fieldText 5 rd, fieldText 5 shamt, fieldText 6 funct]
  | .iType op rs rt imm => [fieldText 6 op, fieldText 5 rs, fieldText 5 rt, fieldText 16 imm]
  | .syscallType op funct => [fieldText 6 op, fieldText 20 0, fieldText 6 funct]

/-- The "grouped bit string": one space between fields (rule R76, decision D23). -/
def Rendering.text (r : Rendering) : List Char := [' '].intercalate r.groups

/-- `imm16` of rule R81: the field, or `none` for a translation error. -/
def imm16 (n : Int) : Option (BitVec 16) :=
  if -32768 ≤ n ∧ n ≤ 65535 then some (BitVec.ofInt 16 n) else none

/-- `sh5` of rule R82: the field, or `none` for a translation error. -/
def sh5 (n : Int) : Option (BitVec 5) :=
  if 0 ≤ n ∧ n ≤ 31 then some (BitVec.ofInt 5 n) else none

/-- The field assignment of rule R79; `none` where a field cannot hold its operand. -/
def rendering (p : RegNums) : Instr → Option Rendering
  | .add rd rs rt => some (.rType opSpecial (p.number rs) (p.number rt) (p.number rd) 0 functAdd)
  | .sub rd rs rt => some (.rType opSpecial (p.number rs) (p.number rt) (p.number rd) 0 functSub)
  | .and rd rs rt => some (.rType opSpecial (p.number rs) (p.number rt) (p.number rd) 0 functAnd)
  | .or rd rs rt => some (.rType opSpecial (p.number rs) (p.number rt) (p.number rd) 0 functOr)
  | .slt rd rs rt => some (.rType opSpecial (p.number rs) (p.number rt) (p.number rd) 0 functSlt)
  | .mult rs rt => some (.rType opSpecial (p.number rs) (p.number rt) 0 0 functMult)
  | .sll rd rt shamt =>
    (sh5 shamt).map (fun h => .rType opSpecial 0 (p.number rt) (p.number rd) h functSll)
  | .syscall => some (.syscallType opSpecial functSyscall)
  | .addi rt rs imm => (imm16 imm).map (fun f => .iType opAddi (p.number rs) (p.number rt) f)
  | .slti rt rs imm => (imm16 imm).map (fun f => .iType opSlti (p.number rs) (p.number rt) f)
  | .lui rt imm => (imm16 imm).map (fun f => .iType opLui 0 (p.number rt) f)
  | .lw rt offset base => (imm16 offset).map (fun f => .iType opLw (p.number base) (p.number rt) f)
  | .sw (.reg rt) offset base =>
    (imm16 offset).map (fun f => .iType opSw (p.number base) (p.number rt) f)
  | .sw (.lit _) _ _ => none

/-- The encoder: the word of an instruction, where it has one. -/
def encode (p : RegNums) (i : Instr) : Option (BitVec 32) := (rendering p i).map Rendering.word

/-- The `match` and `mask` of an instruction's row in spec/opcode_table.json (rule R86). -/
def Instr.tableRow : Instr → BitVec 32 × BitVec 32
  | .add _ _ _ => (0x00000020, 0xFC0007FF)
  | .sub _ _ _ => (0x00000022, 0xFC0007FF)
  | .and _ _ _ => (0x00000024, 0xFC0007FF)
  | .or _ _ _ => (0x00000025, 0xFC0007FF)
  | .slt _ _ _ => (0x0000002A, 0xFC0007FF)
  | .mult _ _ => (0x00000018, 0xFC00FFFF)
  | .sll _ _ _ => (0x00000000, 0xFFE0003F)
  | .syscall => (0x0000000C, 0xFFFFFFFF)
  | .addi _ _ _ => (0x20000000, 0xFC000000)
  | .slti _ _ _ => (0x28000000, 0xFC000000)
  | .lui _ _ => (0x3C000000, 0xFFE00000)
  | .lw _ _ _ => (0x8C000000, 0xFC000000)
  | .sw _ _ _ => (0xAC000000, 0xFC000000)

/-- What the binary encoder returns (rule R87): a bit string, the distinct "no encoding" result of
`la`, or a translation-error message, whose text is not specified. -/
inductive RenderResult where
  | bits (r : Rendering)
  | noEncoding
  | translationError
  deriving DecidableEq, Repr

/-- The binary encoder on an Instruction (rules R76, R79, R87): pure, no path into the engine. A recognised
mnemonic with a wrong number of operand tokens gives a translation error too: DESIGN CHOICE, the spec
names only other malformed operands (log entry 25). -/
def render (p : RegNums) (ins : Instruction) : RenderResult :=
  if ins.mnemonic = "la".toList then .noEncoding
  else
    match decode ins with
    | .instr i =>
      match rendering p i with
      | some r => .bits r
      | none => .translationError
    | .unknown _ => .translationError
    | .malformed _ _ => .translationError

end Sys2Proof
end

