-- ==== Sys2Proof/Machine/System.lean ====
section
/-! DEFINITION. `syscall` and the two decode results that are no instructions (43_system.md). -/

namespace Sys2Proof.Machine

/-- Service 1, print integer (rule R151). -/
def servicePrintInt (s : State) : Result := .next (s.emit (.outInt (s.reg .a0))).complete

/-- Service 4, print string (rule R153): nothing is emitted when the scan leaves the memory. -/
def servicePrintString (s : State) : Result :=
  finish s (do
    let cs ← scanString s.mem (Config.memSize + 1) (s.reg .a0)
    pure (s.emit (.outStr cs)))

/-- Service 10, halt (rule R152). -/
def serviceHalt (s : State) : Result := .next s.halt

/-- `syscall` (rules R150, R154): the service is selected by the exact integer in `$v0`. -/
def execSyscall (s : State) : Result :=
  if s.reg .v0 = 1 then servicePrintInt s
  else if s.reg .v0 = 4 then servicePrintString s
  else if s.reg .v0 = 10 then serviceHalt s
  else .next (s.takeFault .unknownSyscall)

/-- `Unknown` (rule R156): an unrecognised mnemonic. -/
def execUnknown (s : State) : Result := .next (s.takeFault .unknownInstruction)

/-- `Malformed` (rule R158): a recognised mnemonic with bad operands. -/
def execMalformed (s : State) : Result := .next (s.takeFault .malformedOperand)

end Sys2Proof.Machine
end

