-- ==== Sys2Proof/Machine/Engine.lean ====
section
/-! DEFINITION. What one step is made of (44_step_and_dispatch.md rule R172): the enabled test with the
fetch, the dispatch of a decoded kind, and placing an instruction where the next fetch finds it. -/

namespace Sys2Proof.Machine

/-- The fetch, only when a step is enabled: `status = RUNNING` and `pc < len(Prog)` (rules R171, R172).
Otherwise the terminal condition that holds (rule R177). -/
def fetch (s : State) : Except Fault Instruction :=
  match s.status with
  | .halted => .error .runHalted
  | .faulted _ => .error .runFaulted
  | .running =>
    match s.prog[s.pc]? with
    | some ins => .ok ins
    | none => .error .runExhausted

/-- The dispatcher's mapping of kinds to rules (rule R173). -/
def execKind (k : Kind) (s : State) : Result :=
  match k with
  | .instr i => exec i s
  | .unknown _ => execUnknown s
  | .malformed _ _ => execMalformed s

/-- An Instruction no mnemonic recognises: it stands in the store for a word that renders no instruction
(30_encoding.md rule R89; log entry 8). -/
def unrenderedInstruction : Instruction := ⟨[], []⟩

/-- The token form of the instruction a table word renders. -/
def wordInstruction (nbits w : Nat) : Instruction :=
  match decodeTableWord nbits w with
  | some i => i.tokens
  | none => unrenderedInstruction

/-- `prog` with `ins` at index `pc`: in place of what stands there, or after the end, the gap filled with
`ins` itself. -/
def placeAt (prog : List Instruction) (pc : Nat) (ins : Instruction) : List Instruction :=
  (prog ++ List.replicate (pc + 1 - prog.length) ins).set pc ins

end Sys2Proof.Machine
end

