-- ==== Sys2Proof/Machine/Step.lean ====
section
/-! DEFINITION. One step (44_step_and_dispatch.md rule R172). -/

namespace Sys2Proof.Machine

/-- Fetch, decode, execute. A terminal state has no successor (rule R178): the step stops with the terminal
condition's name. -/
def step (s : State) : Host.Outcome State Fault Refusal :=
  match fetch s with
  | .error f => .fault f
  | .ok ins => execKind (decode ins) s

/-- `s` with the instruction of a table word placed where the next step fetches, and the status RUNNING
that a fetch needs (log entry 8). -/
def State.withFetchWord (s : State) (nbits w : Nat) : State :=
  { s with prog := placeAt s.prog s.pc (wordInstruction nbits w), status := .running }

end Sys2Proof.Machine
end

