-- ==== Sys2Proof/Machine/Loader.lean ====
section
/-! DEFINITION. The loader and assembler, outside the block (00_scope.md rule R4): the contract of
30_encoding.md rules R90 to R97 and 70_reset_and_hazards.md rules R226 to R229, which produces the
instruction store and the data image the engine starts from. Its open points are the free parameters of
Config and log entries 12 to 18. -/

namespace Sys2Proof.Machine

/-- `LoadError` (rule R97). Not an engine fault (60_exceptions.md rule R209). -/
inductive LoadError where
  | fileNotFound
  | malformedDataLine
  | unknownLabel
  deriving DecidableEq, Repr

/-- The segment a line belongs to (rules R90, R91). -/
inductive Segment where
  | data
  | text
  deriving DecidableEq, Repr

/-- What the loader has built so far: data image, data pointer, symbol table, instruction list; and the
segment it reads, none before the first switch. -/
structure Image where
  mem : Memory
  dataPtr : Nat
  symtab : List (Token × Nat)
  prog : List Instruction
  segment : Option Segment
  deriving DecidableEq, Repr

/-- Where a load begins: everything as `reset()` leaves it (rules R38, R226). -/
def Image.start : Image := { mem := [], dataPtr := 0, symtab := [], prog := [], segment := none }

/-! ### Text -/

/-- Splits at every character `p` accepts; the pieces between, empty ones too. -/
def splitAtChars (p : Char → Bool) : List Char → List (List Char)
  | [] => [[]]
  | c :: cs =>
    if p c then [] :: splitAtChars p cs
    else
      match splitAtChars p cs with
      | [] => [[c]]
      | w :: ws => (c :: w) :: ws

/-- The lines of a source text (rule R90: "line-oriented text"). -/
def linesOf (text : List Char) : List (List Char) := splitAtChars (fun c => c == '\n') text

/-- "Strip `#`-to-end-of-line comments" (rule R90). -/
def stripComment (line : List Char) : List Char := line.takeWhile (fun c => c != '#')

/-- White space off both ends. -/
def trim (cs : List Char) : List Char := ((cs.dropWhile isSpace).reverse.dropWhile isSpace).reverse

/-- The tokeniser of an instruction line (rule R95). -/
def tokenise (line : List Char) : List Token :=
  (splitAtChars isSeparator line).filter (fun t => !t.isEmpty)

/-! ### Data lines -/

/-- Writes values into consecutive cells from `ptr` (rules R93, R94, R227). Past cell 255 the load fails
(rule R94, decision D19). -/
def writeCells : Memory → Nat → List Int → Except LoadError Memory
  | m, _, [] => .ok m
  | m, ptr, v :: vs =>
    if ptr < Config.memSize then writeCells (Memory.put m ptr v) (ptr + 1) vs
    else .error .malformedDataLine

/-- Whether the code points of an `.asciiz` text are settled: no backslash, no quotation mark (code 34),
nothing beyond ASCII (entry U8). -/
def plainText (cs : List Char) : Bool :=
  cs.all (fun c => decide (c.toNat < 128) && decide (c.toNat ≠ 34) && decide (c.toNat ≠ 92))

/-- The character codes of an `.asciiz` text: "each character's code point" (rule R93). -/
def textCodes (cs : List Char) : List Int :=
  if plainText cs then cs.map (fun c => (c.toNat : Int)) else Config.asciizCodes cs

/-- The text "between the double quotation marks" (rule R93; code 34 is the quotation mark). -/
def quotedText (value : List Char) : Option (List Char) :=
  match value with
  | [] => none
  | q :: rest =>
    match rest.reverse with
    | [] => none
    | q' :: inner => if q.toNat = 34 ∧ q'.toNat = 34 then some inner.reverse else none

/-- `.asciiz`: the codes, "then one terminating zero cell" (rule R93). -/
def asciizCells (value : List Char) : Except LoadError (List Int) :=
  match quotedText value with
  | some cs => .ok (textCodes cs ++ [0])
  | none => .error .malformedDataLine

/-- All of a list of literals, or nothing. -/
def allIntegers : List Token → Option (List Int)
  | [] => some []
  | t :: ts =>
    match intToken (trim t) with
    | some v => (allIntegers ts).map (v :: ·)
    | none => none

/-- `.word`: "split on commas, parse each as an integer" (rule R94). -/
def wordCells (value : List Char) : Except LoadError (List Int) :=
  match allIntegers (splitAtChars (fun c => c == ',') value) with
  | some vs => .ok vs
  | none => .error .malformedDataLine

/-- The cells of `directive value...` (rule R92). -/
def directiveCells (text : List Char) : Except LoadError (List Int) :=
  let directive := text.takeWhile (fun c => !isSpace c)
  let value := trim (text.dropWhile (fun c => !isSpace c))
  if directive = ".asciiz".toList then asciizCells value
  else if directive = ".word".toList then wordCells value
  else .error .malformedDataLine

/-- A data line `label: directive value...` (rule R92): records the label at the data pointer and writes
the cells. An empty label, or one with white space inside, is accepted and recorded as it stands:
DESIGN CHOICE (log entry 26). -/
def loadDataLine (img : Image) (line : List Char) : Except LoadError Image :=
  match line.dropWhile (fun c => c != ':') with
  | [] => .error .malformedDataLine
  | _ :: rest => do
    let cells ← directiveCells (trim rest)
    let mem ← writeCells img.mem img.dataPtr cells
    pure { img with
      mem := mem
      dataPtr := img.dataPtr + cells.length
      symtab := img.symtab ++ [(trim (line.takeWhile (fun c => c != ':')), img.dataPtr)] }

/-! ### Instruction lines -/

/-- The address of a label: `UnknownLabel` if absent (rule R96); with several definitions, the loader's
parameter decides (entry U11). -/
def labelAddress (symtab : List (Token × Nat)) (label : Token) : Except LoadError Nat :=
  match (symtab.filter (fun d => d.1 == label)).map Prod.snd with
  | [] => .error .unknownLabel
  | [a] => .ok a
  | as => .ok (Config.duplicateLabel as)

/-- `la dst, label` becomes `addi dst, $zero, address` (rule R96). -/
def laExpansion (dst : Token) (address : Nat) : Instruction :=
  ⟨"addi".toList, [dst, "$zero".toList, naturalNumeral address]⟩

/-- Expands a token list with the mnemonic `la`; every other one is installed unchecked (rule R95). A `la`
without exactly two operands names no label (log entry 16). -/
def expand (symtab : List (Token × Nat)) (mnemonic : Token) (operands : List Token) :
    Except LoadError Instruction :=
  if mnemonic = "la".toList then
    match operands with
    | [dst, label] => do
      let a ← labelAddress symtab label
      pure (laExpansion dst a)
    | _ => .error .unknownLabel
  else .ok ⟨mnemonic, operands⟩

/-- "Strip a leading `label:` token if present" (rule R95). -/
def stripLabel : List Token → List Token
  | [] => []
  | t :: ts => if t.getLast? = some ':' then ts else t :: ts

/-- An instruction line (rule R95). A line with no token after its label, one of separators only included,
is the line of entry U9: DESIGN CHOICE (log entry 14). -/
def loadTextLine (img : Image) (line : List Char) : Except LoadError Image :=
  match stripLabel (tokenise line) with
  | [] =>
    if Config.emptyLineInstalls then .ok { img with prog := img.prog ++ [⟨[], []⟩] } else .ok img
  | mnemonic :: operands => do
    let ins ← expand img.symtab mnemonic operands
    pure { img with prog := img.prog ++ [ins] }

/-! ### The load -/

/-- One source line (rules R90, R91). -/
def loadLine (img : Image) (source : List Char) : Except LoadError Image :=
  let line := trim (stripComment source)
  if line = [] then .ok img
  else if line = ".data".toList then .ok { img with segment := some .data }
  else if line = ".text".toList then .ok { img with segment := some .text }
  else
    match img.segment with
    | none => .ok img
    | some .data => loadDataLine img line
    | some .text => loadTextLine img line

/-- All lines in order; the first error ends the load. -/
def loadLines : Image → List (List Char) → Except LoadError Image
  | img, [] => .ok img
  | img, line :: lines =>
    match loadLine img line with
    | .error e => .error e
    | .ok img' => loadLines img' lines

/-- `parse(sourceText)` (rule R226). -/
def assemble (text : List Char) : Except LoadError Image := loadLines Image.start (linesOf text)

/-- The launch state of an image: as after reset, with the data image over zeros and the parsed
instruction list (rule R228). -/
def State.launch (s : State) (img : Image) : State :=
  { s.hostReset with mem := img.mem, prog := img.prog, symtab := img.symtab, dataPtr := img.dataPtr }

/-- The host's `load`: reset, parse, install; on any error the state stays at its post-reset values and
the error is surfaced (rules R226, R229). `none` is a source that cannot be read (rule R97). -/
def State.hostLoad (s : State) (source : Option (List Char)) : State × Option LoadError :=
  match source with
  | none => (s.hostReset, some .fileNotFound)
  | some text =>
    match assemble text with
    | .ok img => (s.launch img, none)
    | .error e => (s.hostReset, some e)

end Sys2Proof.Machine
end

