-- ==== Sys2Proof/Machine/Controller.lean ====
section
/-! DEFINITION. The controller and the host's calls (44_step_and_dispatch.md rules R171, R178 to R184). -/

namespace Sys2Proof.Machine

/-- A StepResult or a RunResult: the status after the call and the events it appended (rule R184,
decision D13). -/
structure CallResult where
  status : Status
  events : List Event
  deriving DecidableEq, Repr

/-- The events `t`'s log holds beyond `s`'s. -/
def eventsSince (s t : State) : List Event := t.log.drop s.log.length

/-- What a call that leads from `s` to `t` returns. -/
def callResult (s t : State) : CallResult := ⟨t.status, eventsSince s t⟩

/-- `step()`: "execute exactly one instruction, return resulting state" (rule R179); in a terminal state
the request does nothing (rule R178). -/
def State.hostStep (s : State) : State :=
  match step s with
  | .next t => t
  | .fault _ => s
  | .refused _ => s

/-- At most `n` steps, stopping at the first terminal state. -/
def stepsUpTo : Nat → State → State
  | 0, s => s
  | n + 1, s =>
    match step s with
    | .next t => stepsUpTo n t
    | .fault _ => s
    | .refused _ => s

/-- `run()`: "repeatedly step until `HALTED`, `FAULTED`, or ProgramCounter ≥ Program length" (rule R180).
No run is longer than the instructions left (rule R181), so that many steps always reach the end. -/
def State.hostRun (s : State) : State := stepsUpTo (s.prog.length - s.pc) s

/-- The register snapshot: the full named register file in file order (rules R20, R171). -/
def State.registerSnapshot (s : State) : List (Reg × Int) := Reg.all.map (fun r => (r, s.reg r))

/-- The memory snapshot: the full array of 256 cells (rules R31, R171). -/
def State.memorySnapshot (s : State) : List Int := (List.range Config.memSize).map (Memory.get s.mem)

/-- The program snapshot with the next-instruction pointer (rules R33, R171). -/
def State.programSnapshot (s : State) : List Instruction × Nat := (s.prog, s.pc)

/-- Everything the host can do to the machine (rule R183). -/
inductive HostCall where
  | reset
  | load (source : Option (List Char))
  | step
  | run
  deriving DecidableEq, Repr

/-- A host call's effect on the state. -/
def hostCall (c : HostCall) (s : State) : State :=
  match c with
  | .reset => s.hostReset
  | .load source => (s.hostLoad source).1
  | .step => s.hostStep
  | .run => s.hostRun

end Sys2Proof.Machine
end

