-- ==== Sys2Proof/Safety.lean ====
section
/-! DEFINITION. What counts as a good state and a safe run, and the frames, in the words the statements
use. -/

namespace Sys2Proof.Machine

/-- A step is enabled exactly when `status = RUNNING` and `pc < len(Prog)`
(44_step_and_dispatch.md rule R172). -/
def State.Enabled (s : State) : Prop := s.status = .running ∧ s.pc < s.prog.length

/-- Terminal: halted, faulted or exhausted (rule R177). -/
def State.Terminal (s : State) : Prop :=
  s.status = .halted ∨ (∃ reason, s.status = .faulted reason) ∨
    (s.status = .running ∧ s.prog.length ≤ s.pc)

/-- The invariant of every reachable state (10_state.md rule R39 (b), (c), (d)): `pc` within the program,
at its end when the status is not RUNNING, and the memory a canonical image of 256 cells. -/
structure State.Inv (s : State) : Prop where
  pc_le : s.pc ≤ s.prog.length
  stopped_at_end : s.status ≠ .running → s.pc = s.prog.length
  mem_wf : Memory.wf s.mem

/-- How many `Fault` events a list holds (rule R39 (f)). -/
def faultCount (events : List Event) : Nat :=
  events.countP (fun e => match e with | .fault _ => true | .outInt _ => false | .outStr _ => false)

/-- Rule R39 (f) for a run whose log began as `base`: the events since hold no `Fault` unless the status is
`FAULTED`, and one if it is. -/
def State.FaultsLoggedOnce (base : List Event) (s : State) : Prop :=
  ∃ events, s.log = base ++ events ∧
    faultCount events = (match s.status with | .faulted _ => 1 | .halted => 0 | .running => 0)

/-- Every register but those listed reads the same in both states. -/
def SameRegsBut (rs : List Reg) (s t : State) : Prop := ∀ r, r ∉ rs → t.reg r = s.reg r

/-- The registers a decoded Instruction may write: the named destination, `$HI` and `$LO` for `mult`, none
for `sw`, `syscall` and the results that are no instruction (10_state.md rule R24). -/
def destinations : Kind → List Reg
  | .instr (.add rd _ _) => [rd]
  | .instr (.sub rd _ _) => [rd]
  | .instr (.and rd _ _) => [rd]
  | .instr (.or rd _ _) => [rd]
  | .instr (.slt rd _ _) => [rd]
  | .instr (.mult _ _) => [.hi, .lo]
  | .instr (.sll rd _ _) => [rd]
  | .instr .syscall => []
  | .instr (.addi rt _ _) => [rt]
  | .instr (.slti rt _ _) => [rt]
  | .instr (.lui rt _) => [rt]
  | .instr (.lw rt _ _) => [rt]
  | .instr (.sw _ _ _) => []
  | .unknown _ => []
  | .malformed _ _ => []

/-- Every cell reads the same in both states, at every integer address. -/
def SameCells (s t : State) : Prop := ∀ a : Int, memRead t.mem a = memRead s.mem a

/-- Every cell reads the same but the one at `addr`. -/
def SameCellsBut (addr : Int) (s t : State) : Prop :=
  ∀ a : Int, a ≠ addr → memRead t.mem a = memRead s.mem a

/-- The instruction store and the loader's state are the same. -/
def SameProgram (s t : State) : Prop :=
  t.prog = s.prog ∧ t.symtab = s.symtab ∧ t.dataPtr = s.dataPtr

/-- Normal completion with nothing logged (rule R174): `pc + 1`, the status and the log as before. -/
def CompletesQuietly (s t : State) : Prop := t.pc = s.pc + 1 ∧ t.status = s.status ∧ t.log = s.log

/-- An instruction whose only effect is the register `rd`: it reads `v`, unless it is `$zero`, which reads 0
as ever; every other register and every cell reads as before, and the instruction completes normally. -/
def WritesRegister (rd : Reg) (v : Int) (s t : State) : Prop :=
  (rd ≠ .zero → t.reg rd = v) ∧ t.reg .zero = 0 ∧ SameRegsBut [rd] s t ∧ SameCells s t ∧
    SameProgram s t ∧ CompletesQuietly s t

/-- Fault entry (60_exceptions.md rule R198): status, `pc` and one log event, and nothing else. -/
def TakesFault (reason : FaultReason) (s t : State) : Prop :=
  t.status = .faulted reason ∧ t.pc = s.prog.length ∧ t.log = s.log ++ [.fault reason] ∧
    SameRegsBut [] s t ∧ SameCells s t ∧ SameProgram s t

/-- `n` steps lead from `s` to `t`. -/
inductive Steps : Nat → State → State → Prop where
  | refl (s : State) : Steps 0 s s
  | tail {n : Nat} {s t u : State} : Steps n s t → step t = .next u → Steps (n + 1) s u

/-- What the host can reach from a state by any calls (rule R183). -/
inductive Reachable : State → Prop where
  | start : Reachable State.reset
  | call {s : State} (c : HostCall) : Reachable s → Reachable (hostCall c s)

end Sys2Proof.Machine
end

