-- ==== Sys2Proof/Certificates/Slice0/Obligations.lean ====
section
/-! DEFINITION. The statements for the provers. Each docstring names the rule of spec/ it formalises; a
clause that rests on a choice (a decision D<n> of the spec, or a log entry of this model) is said to. -/

open Sys2Proof Sys2Proof.Machine

/-! ### Reset -/

/-- 10_state.md rule R38, the table of reset values. `status` is the spec's own decision D10, the data
pointer D19, and the empty log of a newly created machine is this model's choice (log entry 7). -/
def Obligations.ResetLeavesStatedValues : Prop :=
  (∀ r : Reg, State.reset.reg r = if r = .sp then 255 else 0) ∧
  State.reset.pc = 0 ∧
  (∀ a : Int, 0 ≤ a → a < 256 → memRead State.reset.mem a = .ok 0) ∧
  State.reset.prog = [] ∧ State.reset.symtab = [] ∧ State.reset.dataPtr = 0 ∧
  State.reset.status = .running ∧ State.reset.log = [] ∧ State.reset.Terminal

/-- 70_reset_and_hazards.md rule R221: whatever the state before, HALTED and FAULTED included, reset gives
everything its reset value and keeps the log. That status is RUNNING is D10, that the log is kept D12. -/
def Obligations.HostResetRestoresAllButTheLog : Prop :=
  ∀ s : State,
    (∀ r : Reg, s.hostReset.reg r = if r = .sp then 255 else 0) ∧ s.hostReset.pc = 0 ∧
    (∀ a : Int, 0 ≤ a → a < 256 → memRead s.hostReset.mem a = .ok 0) ∧
    s.hostReset.prog = [] ∧ s.hostReset.symtab = [] ∧ s.hostReset.dataPtr = 0 ∧
    s.hostReset.status = .running ∧ s.hostReset.log = s.log

/-! ### Invariants -/

/-- The invariant (10_state.md rule R39 (b), (c), (d); canonical memory, log entry 2) holds at reset. -/
def Obligations.InvariantHoldsAtReset : Prop := State.reset.Inv

/-- Every step keeps the invariant. -/
def Obligations.StepKeepsInvariant : Prop :=
  ∀ s t : State, s.Inv → step s = .next t → t.Inv

/-- Every host call keeps it: reset, a load of any source text, a step request and a run
(44_step_and_dispatch.md rule R183), so every state the host can reach has it. -/
def Obligations.EveryReachableStateHasInvariant : Prop :=
  (∀ (c : HostCall) (s : State), s.Inv → (hostCall c s).Inv) ∧ ∀ s : State, Reachable s → s.Inv

/-- 10_state.md rule R39, (a) to (f), of every state that steps reach from what a reset or a load leaves. -/
def Obligations.RunStatesSatisfyRule39 : Prop :=
  ∀ (s l t : State) (n : Nat),
    (l = s.hostReset ∨ ∃ source, l = (s.hostLoad source).1) → Steps n l t →
      t.reg .zero = 0 ∧ t.pc ≤ t.prog.length ∧
      (t.status = .halted ∨ (∃ reason, t.status = .faulted reason) → t.pc = t.prog.length) ∧
      (∀ a : Int, (∃ v, memRead t.mem a = .ok v) ↔ 0 ≤ a ∧ a < 256) ∧
      t.prog = l.prog ∧ State.FaultsLoggedOnce l.log t

/-- 10_state.md rule R39, (a) to (f), as every step keeps it, whatever the log and the program at the last
reset or load were. (b) and (c) stand in the invariant, with the canonical form of log entry 2. -/
def Obligations.StepKeepsRule39 : Prop :=
  ∀ (base : List Event) (prog : List Instruction) (s t : State),
    s.Inv → s.prog = prog → s.FaultsLoggedOnce base → step s = .next t →
      t.reg .zero = 0 ∧ t.Inv ∧ (∀ a : Int, (∃ v, memRead t.mem a = .ok v) ↔ 0 ≤ a ∧ a < 256) ∧
      t.prog = prog ∧ t.FaultsLoggedOnce base

/-- Memories in canonical form that read the same everywhere are the same data: this model's representation
(log entry 2) of the 256 cells of 10_state.md rule R31. -/
def Obligations.CanonicalMemoriesReadingAlikeAreEqual : Prop :=
  ∀ m m' : Memory, Memory.wf m → Memory.wf m' → (∀ a : Int, memRead m a = memRead m' a) → m = m'

/-! ### The step -/

/-- 44_step_and_dispatch.md rule R172: when a step is enabled and the Instruction at `pc` decodes to `i`, the
step is `exec i`, with nothing around it. -/
def Obligations.StepRunsTheDecodedInstruction : Prop :=
  ∀ (s : State) (ins : Instruction) (i : Instr),
    s.status = .running → s.prog[s.pc]? = some ins → decode ins = .instr i → step s = exec i s

/-- 43_system.md rule R156: an unrecognised mnemonic faults whatever its operands, changes no register and
no cell, and no later instruction executes. -/
def Obligations.UnrecognisedMnemonicFaults : Prop :=
  ∀ (s : State) (ins : Instruction),
    s.status = .running → s.prog[s.pc]? = some ins →
    ins.mnemonic ∉ (["add", "sub", "and", "or", "slt", "mult", "sll", "addi", "slti", "lui", "lw", "sw",
      "syscall"].map String.toList) →
    ∃ t, step s = .next t ∧ TakesFault .unknownInstruction s t ∧ ∀ u, step t ≠ .next u

/-- 43_system.md rule R158: a recognised mnemonic whose operands decode to no instruction faults. The causes
are the spec's decision D5. -/
def Obligations.RecognisedMnemonicWithBadOperandsFaults : Prop :=
  ∀ (s : State) (ins : Instruction),
    s.status = .running → s.prog[s.pc]? = some ins →
    ins.mnemonic ∈ (["add", "sub", "and", "or", "slt", "mult", "sll", "addi", "slti", "lui", "lw", "sw",
      "syscall"].map String.toList) →
    (∀ i, decode ins ≠ .instr i) →
    ∃ t, step s = .next t ∧ TakesFault .malformedOperand s t

/-- 44_step_and_dispatch.md rules R172, R176: every instruction, in every state, answers a next state: none
stops or is refused, and an enabled step always has a successor. -/
def Obligations.EveryInstructionAnswersANextState : Prop :=
  (∀ (i : Instr) (s : State), ∃ t, exec i s = .next t) ∧
  ∀ s : State, s.Enabled → ∃ t, step s = .next t

/-- Rule R176: the outcome of a step is one of three, told apart by the status: normal (`pc + 1`, RUNNING,
no fault event); halt, where only `status` and `pc` change; fault, where only `status`, `pc` and one log
event change. That no fault changes a register or a cell is D20. -/
def Obligations.StepEndsNormallyHaltsOrFaults : Prop :=
  ∀ s t : State, step s = .next t →
    (t.status = .running → t.pc = s.pc + 1 ∧ faultCount t.log = faultCount s.log) ∧
    (t.status = .halted → t.pc = s.prog.length ∧ t.log = s.log ∧ SameRegsBut [] s t ∧ SameCells s t ∧
      SameProgram s t) ∧
    (∀ reason, t.status = .faulted reason → TakesFault reason s t)

/-- 10_state.md rule R26: how `pc` changes. -/
def Obligations.ProgramCounterChangesOnlyAsStated : Prop :=
  ∀ s : State, s.hostReset.pc = 0 ∧
    (∀ source, (s.hostLoad source).1.pc = 0) ∧
    ∀ t : State, step s = .next t →
      (t.status = .running → t.pc = s.pc + 1) ∧
      (t.status = .halted → t.pc = t.prog.length) ∧
      (∀ reason, t.status = .faulted reason → t.pc = t.prog.length)

/-- 10_state.md rule R27: between loads `pc` never decreases, at its end nothing is fetched, and no
program-counter value is executed twice. -/
def Obligations.NoProgramCounterValueIsExecutedTwice : Prop :=
  (∀ (n : Nat) (s t : State), Steps n s t → s.pc + n ≤ t.pc) ∧
  (∀ (n : Nat) (s t : State), Steps n s t → s.pc ≤ s.prog.length → t.pc ≤ s.prog.length) ∧
  ∀ s t : State, s.prog.length ≤ s.pc → step s ≠ .next t

/-- Rule R172: a step writes at most the decoded instruction's destination register (`$HI` and `$LO` for
`mult`, none for `sw`, `syscall` and what decodes to no instruction), the cell at the effective address for
`sw` and no cell otherwise, `pc`, `status` and one log event, and never the program. -/
def Obligations.StepWritesAtMostOneRegisterCellAndEvent : Prop :=
  ∀ (s t : State) (ins : Instruction), s.prog[s.pc]? = some ins → step s = .next t →
    SameRegsBut (destinations (decode ins)) s t ∧
    (∀ src offset base, decode ins = .instr (.sw src offset base) →
      SameCellsBut (effectiveAddress s offset base) s t) ∧
    ((∀ src offset base, decode ins ≠ .instr (.sw src offset base)) → SameCells s t) ∧
    (t.log = s.log ∨ ∃ e, t.log = s.log ++ [e]) ∧ SameProgram s t

/-- Rules R177, R178: a state is terminal exactly when no step leads out of it, and the step then stops with
the terminal condition's name. That it has no successor is D11 (log entry 5). -/
def Obligations.TerminalExactlyWhenNoSuccessor : Prop :=
  ∀ s : State,
    (s.Terminal ↔ ∀ t, step s ≠ .next t) ∧ (s.Terminal ↔ ¬ s.Enabled) ∧
    (step s = .fault .runHalted ↔ s.status = .halted) ∧
    (step s = .fault .runFaulted ↔ ∃ reason, s.status = .faulted reason) ∧
    (step s = .fault .runExhausted ↔ s.status = .running ∧ s.prog.length ≤ s.pc) ∧
    ∀ r, step s ≠ .refused r

/-! ### Decoding and encoding -/

/-- 30_encoding.md rules R71, R73, R74, R75: the token form of any instruction, with any registers and any
integers, is made of tokens and decodes back to it. -/
def Obligations.TokensOfAnInstructionDecodeBack : Prop :=
  ∀ i : Instr, i.tokens.wf = true ∧ decode i.tokens = .instr i

/-- Rules R71, R72, R84: which operand lists each mnemonic accepts, and what it decodes to. The exact count
and the failures are D5, D7. -/
def Obligations.OperandShapesDecideDecoding : Prop :=
  ∀ (ops : List Token) (i : Instr),
    (∀ p ∈ [("add", Instr.add), ("sub", Instr.sub), ("and", Instr.and), ("or", Instr.or), ("slt", Instr.slt)],
      decode ⟨p.1.toList, ops⟩ = .instr i ↔
        ∃ rd rs rt, ops = [Reg.name rd, Reg.name rs, Reg.name rt] ∧ i = p.2 rd rs rt) ∧
    (decode ⟨"mult".toList, ops⟩ = .instr i ↔
      ∃ rs rt, ops = [Reg.name rs, Reg.name rt] ∧ i = .mult rs rt) ∧
    (∀ p ∈ [("sll", Instr.sll), ("addi", Instr.addi), ("slti", Instr.slti)],
      decode ⟨p.1.toList, ops⟩ = .instr i ↔
        ∃ x y tok n, ops = [Reg.name x, Reg.name y, tok] ∧ intToken tok = some n ∧ i = p.2 x y n) ∧
    (decode ⟨"lui".toList, ops⟩ = .instr i ↔
      ∃ rt tok n, ops = [Reg.name rt, tok] ∧ intToken tok = some n ∧ i = .lui rt n) ∧
    (decode ⟨"lw".toList, ops⟩ = .instr i ↔
      ∃ rt tok n base, ops = [Reg.name rt, tok, Reg.name base] ∧ intToken tok = some n ∧ i = .lw rt n base) ∧
    (decode ⟨"sw".toList, ops⟩ = .instr i ↔
      ∃ first src tok n base, ops = [first, tok, Reg.name base] ∧ intToken tok = some n ∧
        ((∃ rt, first = Reg.name rt ∧ src = .reg rt) ∨
          ((∀ rt, first ≠ Reg.name rt) ∧ ∃ v, intToken first = some v ∧ src = .lit v)) ∧
        i = .sw src n base) ∧
    (decode ⟨"syscall".toList, ops⟩ = .instr i ↔ ops = [] ∧ i = .syscall)

/-- Rules R76 to R82 and the inverse of the rendering (log entry 9): whatever the two open register numbers
are, as long as they collide with no other, the word of every instruction a word can carry decodes back
to it. -/
def Obligations.WordOfAnInstructionDecodesBack : Prop :=
  ∀ p : RegNums, p.wf = true → ∀ i : Instr, i.wf = true →
    ∃ w, encode p i = some w ∧ decodeWord p w = some i

/-- The other direction: a word that decodes is the rendering of what it decodes to, whatever the open
numbers are; so no two words stand for one instruction and none has an ignored bit. -/
def Obligations.DecodedWordIsTheRendering : Prop :=
  ∀ (p : RegNums) (w : BitVec 32) (i : Instr), decodeWord p w = some i → encode p i = some w

/-- Rule R86: a word that decodes to an instruction matches that instruction's row of opcode_table.json. -/
def Obligations.DecodedWordMatchesItsTableRow : Prop :=
  ∀ (p : RegNums) (w : BitVec 32) (i : Instr), decodeWord p w = some i →
    w &&& i.tableRow.2 = i.tableRow.1

/-- Rule R86: "the thirteen patterns are pairwise disjoint": two instructions of different mnemonics disagree
on a bit that both their rows fix. -/
def Obligations.OpcodePatternsAreDisjoint : Prop :=
  ∀ i j : Instr, i.tokens.mnemonic ≠ j.tokens.mnemonic →
    (i.tableRow.1 ^^^ j.tableRow.1) &&& i.tableRow.2 &&& j.tableRow.2 ≠ 0

/-- Words of 95_test_vectors.md section 2.8 (B1, B6, B7, B8, B11, B12, B13 and I6), whatever the open
numbers are. -/
def Obligations.SpecimenWordsDecode : Prop :=
  ∀ p : RegNums,
    decodeWord p 0x01095020 = some (.add .t2 .t0 .t1) ∧
    decodeWord p 0x012A0018 = some (.mult .t1 .t2) ∧
    decodeWord p 0x000A5900 = some (.sll .t3 .t2 4) ∧
    decodeWord p 0x0000000C = some .syscall ∧
    decodeWord p 0x3C080001 = some (.lui .t0 1) ∧
    decodeWord p 0x8FA90001 = some (.lw .t1 1 .sp) ∧
    decodeWord p 0xAFA80000 = some (.sw (.reg .t0) 0 .sp) ∧
    decodeWord p 0x23BDFFFF = some (.addi .sp .sp (-1))

/-- Rule R76: the grouped bit string of a rendering, its blanks aside, is its word, bit 31 first. -/
def Obligations.RenderedTextSpellsTheWord : Prop :=
  ∀ r : Rendering, r.text.filter (fun c => c ≠ ' ') = fieldText 32 r.word

/-- Rules R81, R82, R84, R87: what the encoder answers. Out-of-range fields, unknown mnemonics and the literal
`sw` are D16; a wrong number of operand tokens is the model's choice (log entry 25). -/
def Obligations.EncoderAnswersAsStated : Prop :=
  ∀ p : RegNums,
    (∀ ops, render p ⟨"la".toList, ops⟩ = .noEncoding) ∧
    (∀ ins i r, decode ins = .instr i → rendering p i = some r → render p ins = .bits r) ∧
    (∀ ins i, decode ins = .instr i → rendering p i = none → render p ins = .translationError) ∧
    (∀ ins m, ins.mnemonic ≠ "la".toList → decode ins = .unknown m → render p ins = .translationError) ∧
    (∀ ins m ops, decode ins = .malformed m ops → render p ins = .translationError) ∧
    (∀ rd rs rt, ∀ i ∈ [Instr.add rd rs rt, .sub rd rs rt, .and rd rs rt, .or rd rs rt, .slt rd rs rt,
      .mult rs rt, .syscall], rendering p i ≠ none) ∧
    (∀ rd rt n, rendering p (.sll rd rt n) = none ↔ n < 0 ∨ 31 < n) ∧
    (∀ rt rs n, ∀ i ∈ [Instr.addi rt rs n, .slti rt rs n, .lui rt n, .lw rt n rs, .sw (.reg rt) n rs],
      rendering p i = none ↔ n < -32768 ∨ 65535 < n) ∧
    (∀ v n base, rendering p (.sw (.lit v) n base) = none)

/-! ### Arithmetic and logic: results, completion, frames. Exact integers are D1. -/

/-- 40_arithmetic_logic.md rule R111: `add` completes with the exact sum in `rd` and changes nothing else. -/
def Obligations.AddWritesTheSum : Prop :=
  ∀ (rd rs rt : Reg) (s : State), ∃ t, exec (.add rd rs rt) s = .next t ∧
    WritesRegister rd (s.reg rs + s.reg rt) s t

/-- Rule R112: `sub` completes with `rs` minus `rt`. -/
def Obligations.SubWritesTheDifference : Prop :=
  ∀ (rd rs rt : Reg) (s : State), ∃ t, exec (.sub rd rs rt) s = .next t ∧
    WritesRegister rd (s.reg rs - s.reg rt) s t

/-- Rules R113 and R8 (D2): `and` completes with the integer each of whose bits is the product of the
operands' bits. -/
def Obligations.AndWritesTheProductOfBits : Prop :=
  ∀ (rd rs rt : Reg) (s : State), ∃ t v, exec (.and rd rs rt) s = .next t ∧ WritesRegister rd v s t ∧
    ∀ i, bitOf v i = bitOf (s.reg rs) i * bitOf (s.reg rt) i

/-- Rules R114 and R8 (D2): `or` completes with the integer each of whose bits is the maximum of the operands'
bits. -/
def Obligations.OrWritesTheMaximumOfBits : Prop :=
  ∀ (rd rs rt : Reg) (s : State), ∃ t v, exec (.or rd rs rt) s = .next t ∧ WritesRegister rd v s t ∧
    ∀ i, bitOf v i = max (bitOf (s.reg rs) i) (bitOf (s.reg rt) i)

/-- Rule R8: the bits determine the integer, so "the unique integer" of `AND` and `OR` is well spoken. -/
def Obligations.BitsDetermineTheInteger : Prop :=
  ∀ u v : Int, (∀ i, bitOf u i = bitOf v i) → u = v

/-- Rule R115: `slt` completes with 1 or 0 by the order of the integers. -/
def Obligations.SltWritesTheComparison : Prop :=
  ∀ (rd rs rt : Reg) (s : State), ∃ t, exec (.slt rd rs rt) s = .next t ∧
    WritesRegister rd (if s.reg rs < s.reg rt then 1 else 0) s t

/-- Rule R116 (D3): `mult` completes with the exact product split at bit 32 and writes no other register. -/
def Obligations.MultSplitsTheExactProduct : Prop :=
  ∀ (rs rt : Reg) (s : State), ∃ t, exec (.mult rs rt) s = .next t ∧
    t.reg .lo = s.reg rs * s.reg rt % 4294967296 ∧
    t.reg .hi = ⌊(s.reg rs * s.reg rt : ℚ) / 4294967296⌋ ∧
    t.reg .hi * 4294967296 + t.reg .lo = s.reg rs * s.reg rt ∧
    0 ≤ t.reg .lo ∧ t.reg .lo < 4294967296 ∧
    SameRegsBut [.hi, .lo] s t ∧ SameCells s t ∧ SameProgram s t ∧ CompletesQuietly s t

/-- Rule R117: `sll` by an amount of any size from 0 up completes with the exact product. Amounts above 31
are D4. -/
def Obligations.SllWritesTheExactShift : Prop :=
  ∀ (rd rt : Reg) (shamt : Int) (s : State), 0 ≤ shamt → ∃ t, exec (.sll rd rt shamt) s = .next t ∧
    WritesRegister rd (s.reg rt * 2 ^ shamt.toNat) s t

/-- Rule R117 (D4): a negative shift amount takes the `MalformedOperand` fault. -/
def Obligations.SllByNegativeAmountFaults : Prop :=
  ∀ (rd rt : Reg) (shamt : Int) (s : State), shamt < 0 → ∃ t, exec (.sll rd rt shamt) s = .next t ∧
    TakesFault .malformedOperand s t

/-- 41_immediate.md rule R131: `addi` completes with the exact sum. -/
def Obligations.AddiWritesTheSum : Prop :=
  ∀ (rt rs : Reg) (imm : Int) (s : State), ∃ t, exec (.addi rt rs imm) s = .next t ∧
    WritesRegister rt (s.reg rs + imm) s t

/-- Rule R132: `slti` completes with 1 or 0 by the order of the integers. -/
def Obligations.SltiWritesTheComparison : Prop :=
  ∀ (rt rs : Reg) (imm : Int) (s : State), ∃ t, exec (.slti rt rs imm) s = .next t ∧
    WritesRegister rt (if s.reg rs < imm then 1 else 0) s t

/-- Rule R133: `lui` completes with `imm * 65536`, whatever the register held. -/
def Obligations.LuiAssignsTheUpperImmediate : Prop :=
  ∀ (rt : Reg) (imm : Int) (s : State), ∃ t, exec (.lui rt imm) s = .next t ∧
    WritesRegister rt (imm * 65536) s t

/-- 10_state.md rule R21: `$zero` reads 0, and an instruction whose destination is `$zero` completes normally
with nothing changed but `pc`. That nothing is logged is the model's choice: decision D12 and conflict C1,
log entry 19. -/
def Obligations.WritesToZeroAreDropped : Prop :=
  ∀ s : State, s.reg .zero = 0 ∧
    (∀ (rs rt : Reg) (imm : Int) (k : Nat),
      ∀ i ∈ [Instr.add .zero rs rt, .sub .zero rs rt, .and .zero rs rt, .or .zero rs rt, .slt .zero rs rt,
        .sll .zero rt k, .addi .zero rs imm, .slti .zero rs imm, .lui .zero imm],
      ∃ t, exec i s = .next t ∧ t.reg .zero = 0 ∧ SameRegsBut [] s t ∧ SameCells s t ∧ SameProgram s t ∧
        CompletesQuietly s t) ∧
    (∀ (offset : Int) (base : Reg), 0 ≤ offset + s.reg base → offset + s.reg base < 256 →
      ∃ t, exec (.lw .zero offset base) s = .next t ∧ t.reg .zero = 0 ∧ SameRegsBut [] s t ∧ SameCells s t ∧
        SameProgram s t ∧ CompletesQuietly s t)

/-! ### Loads and stores -/

/-- 42_load_store.md rule R141: `lw` at an address 0 to 255 completes with the cell's integer in `rt`. -/
def Obligations.LwLoadsTheCell : Prop :=
  ∀ (rt base : Reg) (offset : Int) (s : State),
    0 ≤ offset + s.reg base → offset + s.reg base < 256 →
    ∃ t v, memRead s.mem (offset + s.reg base) = .ok v ∧ exec (.lw rt offset base) s = .next t ∧
      WritesRegister rt v s t

/-- 20_memory.md rule R61: `lw` and `sw` outside 0 to 255 take `MemoryFault`, whatever the destination and the
stored operand, with no register and no cell changed. -/
def Obligations.AccessOutOfBoundsFaults : Prop :=
  ∀ (rt base : Reg) (src : StoreSource) (offset : Int) (s : State),
    offset + s.reg base < 0 ∨ 256 ≤ offset + s.reg base →
    (∃ t, exec (.lw rt offset base) s = .next t ∧ TakesFault .memoryFault s t) ∧
    ∃ t, exec (.sw src offset base) s = .next t ∧ TakesFault .memoryFault s t

/-- Rule R142 and 30_encoding.md rule R84: `sw` at an address 0 to 255, in either form, completes with the
value in that cell and every other cell and every register as before. -/
def Obligations.SwStoresTheValue : Prop :=
  ∀ (src : StoreSource) (base : Reg) (offset : Int) (s : State), Memory.wf s.mem →
    0 ≤ effectiveAddress s offset base → effectiveAddress s offset base < 256 →
    ∃ t, exec (.sw src offset base) s = .next t ∧
      effectiveAddress s offset base = offset + s.reg base ∧
      memRead t.mem (effectiveAddress s offset base) =
        .ok (match src with | .reg rt => s.reg rt | .lit v => v) ∧
      SameCellsBut (effectiveAddress s offset base) s t ∧ SameRegsBut [] s t ∧ SameProgram s t ∧
      CompletesQuietly s t

/-- 20_memory.md rule R63: a store and then a load of the same operand gives the stored register back. -/
def Obligations.StoreThenLoadReturnsTheValue : Prop :=
  ∀ (rt rd base : Reg) (offset : Int) (s : State), Memory.wf s.mem → rd ≠ .zero →
    0 ≤ offset + s.reg base → offset + s.reg base < 256 →
    ∃ t u, exec (.sw (.reg rt) offset base) s = .next t ∧ exec (.lw rd offset base) t = .next u ∧
      u.reg rd = s.reg rt

/-! ### syscall -/

/-- 43_system.md rule R151: service 1 emits the exact integer of `$a0`, completes normally and changes nothing
else. -/
def Obligations.SyscallPrintsTheInteger : Prop :=
  ∀ s : State, s.reg .v0 = 1 → ∃ t, exec .syscall s = .next t ∧
    t.log = s.log ++ [.outInt (s.reg .a0)] ∧ t.pc = s.pc + 1 ∧ t.status = s.status ∧
    SameRegsBut [] s t ∧ SameCells s t ∧ SameProgram s t

/-- Rule R153: service 4 emits the cells from `$a0` up to the first zero cell, which is not part of the
string, in one event, and changes nothing else. -/
def Obligations.SyscallPrintsTheString : Prop :=
  ∀ (s : State) (cs : List Int), s.reg .v0 = 4 →
    (∀ (k : Nat) (h : k < cs.length), memRead s.mem (s.reg .a0 + k) = .ok cs[k] ∧ cs[k] ≠ 0) →
    memRead s.mem (s.reg .a0 + cs.length) = .ok 0 →
    ∃ t, exec .syscall s = .next t ∧
      t.log = s.log ++ [.outStr cs] ∧ t.pc = s.pc + 1 ∧ t.status = s.status ∧
      SameRegsBut [] s t ∧ SameCells s t ∧ SameProgram s t

/-- Rule R153 (D9): a scan that starts outside the memory or meets no zero cell takes `MemoryFault` and emits
no string. -/
def Obligations.StringScanLeavingMemoryFaults : Prop :=
  ∀ s : State, s.reg .v0 = 4 →
    (∀ a : Int, 0 ≤ s.reg .a0 → s.reg .a0 ≤ a → memRead s.mem a ≠ .ok 0) →
    ∃ t, exec .syscall s = .next t ∧ TakesFault .memoryFault s t

/-- Rule R152: service 10 halts at the end of the program, writes no register, cell or event, and no step
follows. -/
def Obligations.SyscallHalts : Prop :=
  ∀ s : State, s.reg .v0 = 10 → ∃ t, exec .syscall s = .next t ∧
    t.status = .halted ∧ t.pc = s.prog.length ∧ t.log = s.log ∧
    SameRegsBut [] s t ∧ SameCells s t ∧ SameProgram s t ∧ ∀ u, step t ≠ .next u

/-- Rule R154: any other selector takes `UnknownSyscall`, and nothing else changes. -/
def Obligations.UnknownSelectorFaults : Prop :=
  ∀ s : State, s.reg .v0 ≠ 1 → s.reg .v0 ≠ 4 → s.reg .v0 ≠ 10 →
    ∃ t, exec .syscall s = .next t ∧ TakesFault .unknownSyscall s t

/-! ### Whole-machine rules -/

/-- 20_memory.md rule R50: no instruction but `sw` changes a cell. -/
def Obligations.OnlyStoresChangeMemory : Prop :=
  ∀ (i : Instr) (s t : State), exec i s = .next t → (∀ src offset base, i ≠ .sw src offset base) →
    SameCells s t

/-- 10_state.md rules R35, R37 and R29: only `syscall` writes output events, only it halts; every other
instruction logs nothing or its one fault. -/
def Obligations.OnlySyscallPrintsOrHalts : Prop :=
  ∀ (i : Instr) (s t : State), exec i s = .next t → i ≠ .syscall →
    (t.log = s.log ∧ t.status = s.status ∨
      ∃ reason, t.log = s.log ++ [.fault reason] ∧ t.status = .faulted reason)

/-- Rule R29 and 60_exceptions.md rule R201: `HALTED` and `FAULTED` are left only by reset or load; a step
request or a run there changes nothing (44_step_and_dispatch.md rule R178, D11). -/
def Obligations.StoppedStatusLeftOnlyByResetOrLoad : Prop :=
  ∀ s : State, (s.Terminal → hostCall .step s = s ∧ hostCall .run s = s) ∧
    (hostCall .reset s).status = .running ∧ ∀ source, (hostCall (.load source) s).status = .running

/-- 10_state.md rule R37 (D12): no host call removes or alters a log event, and what it returns as appended is
what it appended. -/
def Obligations.HostCallsOnlyAppendToTheLog : Prop :=
  ∀ (c : HostCall) (s : State), (hostCall c s).log = s.log ++ eventsSince s (hostCall c s)

/-! ### The controller -/

/-- Rules R180, R181: a run reaches a terminal state in no more steps than the program has instructions left;
the machine cannot hang. -/
def Obligations.RunReachesATerminalState : Prop :=
  ∀ s : State, ∃ (n : Nat) (t : State), n ≤ s.prog.length - s.pc ∧ Steps n s t ∧ t.Terminal ∧ s.hostRun = t

/-- Rule R182: the instructions execute in order; after `n` steps with the run still going `pc` has advanced
by `n`. -/
def Obligations.InstructionsExecuteInOrder : Prop :=
  ∀ (n : Nat) (s t : State), Steps n s t → t.status = .running → t.pc = s.pc + n

/-- Rules R179, R180: some single steps followed by a run end where the run alone ends. -/
def Obligations.SingleStepsThenRunEndAlike : Prop :=
  ∀ (n : Nat) (s t : State), Steps n s t → t.hostRun = s.hostRun

/-! ### The loader -/

/-- 30_encoding.md rule R96: `la dst, label` is the `addi` of the label's address, which for a label with
exactly one entry in the symbol table is that entry's, and fails with `UnknownLabel` if the label is
absent. A label with several entries has an open address (log entry 13). -/
def Obligations.LaBecomesAddi : Prop :=
  ∀ (symtab : List (Token × Nat)) (r : Reg) (label : Token),
    (∀ (before after : List (Token × Nat)) (a : Nat), symtab = before ++ (label, a) :: after →
      (∀ d ∈ before, d.1 ≠ label) → (∀ d ∈ after, d.1 ≠ label) →
      ∃ ins, expand symtab "la".toList [r.name, label] = .ok ins ∧ decode ins = .instr (.addi r .zero a)) ∧
    (∀ a, labelAddress symtab label = .ok a →
      ∃ ins, expand symtab "la".toList [r.name, label] = .ok ins ∧ decode ins = .instr (.addi r .zero a)) ∧
    ((∀ d ∈ symtab, d.1 ≠ label) → expand symtab "la".toList [r.name, label] = .error .unknownLabel)

/-- Rules R94, R96, R227, D19: what a successful assembly gives: an image within 256 cells, zero from the data
pointer up, and a program in which every `la` is replaced. -/
def Obligations.AssembledImageIsSound : Prop :=
  ∀ (text : List Char) (img : Image), assemble text = .ok img →
    Memory.wf img.mem ∧ img.dataPtr ≤ 256 ∧ (∀ a, img.dataPtr ≤ a → Memory.get img.mem a = 0) ∧
    ∀ ins ∈ img.prog, ins.mnemonic ≠ "la".toList

/-- Rules R93, R94: the values of a data line fill consecutive cells from the data pointer, in order, and no
other cell changes. -/
def Obligations.DataLineFillsConsecutiveCells : Prop :=
  ∀ (m m' : Memory) (ptr : Nat) (vs : List Int), Memory.wf m → writeCells m ptr vs = .ok m' →
    (∀ (k : Nat) (h : k < vs.length), Memory.get m' (ptr + k) = vs[k]) ∧
    ∀ a, a < ptr ∨ ptr + vs.length ≤ a → Memory.get m' a = Memory.get m a

/-- 70_reset_and_hazards.md rule R228: the launch state after a successful load. -/
def Obligations.LoadGivesTheLaunchState : Prop :=
  ∀ (s : State) (text : List Char) (img : Image), assemble text = .ok img →
    (s.hostLoad (some text)).2 = none ∧
    (∀ r, (s.hostLoad (some text)).1.reg r = if r = .sp then 255 else 0) ∧
    (s.hostLoad (some text)).1.pc = 0 ∧ (s.hostLoad (some text)).1.status = .running ∧
    (∀ a : Int, memRead (s.hostLoad (some text)).1.mem a = memRead img.mem a) ∧
    (s.hostLoad (some text)).1.prog = img.prog ∧ (s.hostLoad (some text)).1.log = s.log

/-- Rule R229: after a failed load the memory is all zero, the program empty and the engine exhausted; the
error goes to the caller and no event is logged. -/
def Obligations.FailedLoadLeavesThePostResetState : Prop :=
  ∀ (s : State) (source : Option (List Char)),
    (source = none ∨ ∃ text e, source = some text ∧ assemble text = .error e) →
    (s.hostLoad source).2 ≠ none ∧ (s.hostLoad source).1 = s.hostReset ∧
    (∀ r, (s.hostLoad source).1.reg r = if r = .sp then 255 else 0) ∧
    (∀ a : Int, 0 ≤ a → a < 256 → memRead (s.hostLoad source).1.mem a = .ok 0) ∧
    (s.hostLoad source).1.prog = [] ∧ (s.hostLoad source).1.status = .running ∧
    (s.hostLoad source).1.log = s.log ∧ (s.hostLoad source).1.Terminal
end

