-- ==== Sys2Proof/Laws/State.lean ====
section
/-! SUPPORT. One lemma per field per update of the state, so that no later proof unfolds a record update;
and what a register read gives after each update. -/

namespace Sys2Proof.Machine

/-! ### setReg -/

@[simp] theorem setReg_pc (s : State) (r : Reg) (v : Int) : (s.setReg r v).pc = s.pc := by cases r <;> rfl
@[simp] theorem setReg_status (s : State) (r : Reg) (v : Int) : (s.setReg r v).status = s.status := by
  cases r <;> rfl
@[simp] theorem setReg_mem (s : State) (r : Reg) (v : Int) : (s.setReg r v).mem = s.mem := by cases r <;> rfl
@[simp] theorem setReg_prog (s : State) (r : Reg) (v : Int) : (s.setReg r v).prog = s.prog := by
  cases r <;> rfl
@[simp] theorem setReg_log (s : State) (r : Reg) (v : Int) : (s.setReg r v).log = s.log := by cases r <;> rfl
@[simp] theorem setReg_symtab (s : State) (r : Reg) (v : Int) : (s.setReg r v).symtab = s.symtab := by
  cases r <;> rfl
@[simp] theorem setReg_dataPtr (s : State) (r : Reg) (v : Int) : (s.setReg r v).dataPtr = s.dataPtr := by
  cases r <;> rfl

@[simp] theorem setReg_zero (s : State) (v : Int) : s.setReg .zero v = s := rfl

@[simp] theorem reg_zero (s : State) : s.reg .zero = 0 := rfl

theorem reg_setReg_self (s : State) {r : Reg} (v : Int) (h : r ≠ .zero) : (s.setReg r v).reg r = v := by
  cases r <;> first | exact absurd rfl h | rfl

theorem reg_setReg_of_ne (s : State) {r q : Reg} (v : Int) (h : q ≠ r) : (s.setReg r v).reg q = s.reg q := by
  cases r <;> cases q <;> first | exact absurd rfl h | rfl

/-- A read after a write, in one equation. -/
theorem reg_setReg (s : State) (r q : Reg) (v : Int) :
    (s.setReg r v).reg q = if q = r ∧ q ≠ .zero then v else s.reg q := by
  by_cases hq : q = r
  · subst hq
    by_cases hz : q = .zero
    · subst hz; rfl
    · simp [hz, reg_setReg_self]
  · simp [hq, reg_setReg_of_ne]

/-! ### emit, complete, halt, takeFault, hostReset, launch -/

@[simp] theorem emit_regs (s : State) (e : Event) : (s.emit e).regs = s.regs := rfl
@[simp] theorem emit_pc (s : State) (e : Event) : (s.emit e).pc = s.pc := rfl
@[simp] theorem emit_status (s : State) (e : Event) : (s.emit e).status = s.status := rfl
@[simp] theorem emit_mem (s : State) (e : Event) : (s.emit e).mem = s.mem := rfl
@[simp] theorem emit_prog (s : State) (e : Event) : (s.emit e).prog = s.prog := rfl
@[simp] theorem emit_log (s : State) (e : Event) : (s.emit e).log = s.log ++ [e] := rfl
@[simp] theorem emit_symtab (s : State) (e : Event) : (s.emit e).symtab = s.symtab := rfl
@[simp] theorem emit_dataPtr (s : State) (e : Event) : (s.emit e).dataPtr = s.dataPtr := rfl
@[simp] theorem emit_reg (s : State) (e : Event) (r : Reg) : (s.emit e).reg r = s.reg r := by
  cases r <;> rfl

@[simp] theorem complete_regs (s : State) : s.complete.regs = s.regs := rfl
@[simp] theorem complete_pc (s : State) : s.complete.pc = s.pc + 1 := rfl
@[simp] theorem complete_status (s : State) : s.complete.status = s.status := rfl
@[simp] theorem complete_mem (s : State) : s.complete.mem = s.mem := rfl
@[simp] theorem complete_prog (s : State) : s.complete.prog = s.prog := rfl
@[simp] theorem complete_log (s : State) : s.complete.log = s.log := rfl
@[simp] theorem complete_symtab (s : State) : s.complete.symtab = s.symtab := rfl
@[simp] theorem complete_dataPtr (s : State) : s.complete.dataPtr = s.dataPtr := rfl
@[simp] theorem complete_reg (s : State) (r : Reg) : s.complete.reg r = s.reg r := by cases r <;> rfl

@[simp] theorem halt_regs (s : State) : s.halt.regs = s.regs := rfl
@[simp] theorem halt_pc (s : State) : s.halt.pc = s.prog.length := rfl
@[simp] theorem halt_status (s : State) : s.halt.status = .halted := rfl
@[simp] theorem halt_mem (s : State) : s.halt.mem = s.mem := rfl
@[simp] theorem halt_prog (s : State) : s.halt.prog = s.prog := rfl
@[simp] theorem halt_log (s : State) : s.halt.log = s.log := rfl
@[simp] theorem halt_symtab (s : State) : s.halt.symtab = s.symtab := rfl
@[simp] theorem halt_dataPtr (s : State) : s.halt.dataPtr = s.dataPtr := rfl
@[simp] theorem halt_reg (s : State) (r : Reg) : s.halt.reg r = s.reg r := by cases r <;> rfl

@[simp] theorem takeFault_regs (s : State) (e : FaultReason) : (s.takeFault e).regs = s.regs := rfl
@[simp] theorem takeFault_pc (s : State) (e : FaultReason) : (s.takeFault e).pc = s.prog.length := rfl
@[simp] theorem takeFault_status (s : State) (e : FaultReason) : (s.takeFault e).status = .faulted e := rfl
@[simp] theorem takeFault_mem (s : State) (e : FaultReason) : (s.takeFault e).mem = s.mem := rfl
@[simp] theorem takeFault_prog (s : State) (e : FaultReason) : (s.takeFault e).prog = s.prog := rfl
@[simp] theorem takeFault_log (s : State) (e : FaultReason) :
    (s.takeFault e).log = s.log ++ [.fault e] := rfl
@[simp] theorem takeFault_symtab (s : State) (e : FaultReason) : (s.takeFault e).symtab = s.symtab := rfl
@[simp] theorem takeFault_dataPtr (s : State) (e : FaultReason) : (s.takeFault e).dataPtr = s.dataPtr := rfl
@[simp] theorem takeFault_reg (s : State) (e : FaultReason) (r : Reg) : (s.takeFault e).reg r = s.reg r := by
  cases r <;> rfl

@[simp] theorem hostReset_regs (s : State) : s.hostReset.regs = State.reset.regs := rfl
@[simp] theorem hostReset_pc (s : State) : s.hostReset.pc = 0 := rfl
@[simp] theorem hostReset_status (s : State) : s.hostReset.status = .running := rfl
@[simp] theorem hostReset_mem (s : State) : s.hostReset.mem = [] := rfl
@[simp] theorem hostReset_prog (s : State) : s.hostReset.prog = [] := rfl
@[simp] theorem hostReset_log (s : State) : s.hostReset.log = s.log := rfl
@[simp] theorem hostReset_symtab (s : State) : s.hostReset.symtab = [] := rfl
@[simp] theorem hostReset_dataPtr (s : State) : s.hostReset.dataPtr = 0 := rfl
@[simp] theorem hostReset_reg (s : State) (r : Reg) : s.hostReset.reg r = State.reset.reg r := by
  cases r <;> rfl

@[simp] theorem launch_regs (s : State) (img : Image) : (s.launch img).regs = State.reset.regs := rfl
@[simp] theorem launch_pc (s : State) (img : Image) : (s.launch img).pc = 0 := rfl
@[simp] theorem launch_status (s : State) (img : Image) : (s.launch img).status = .running := rfl
@[simp] theorem launch_mem (s : State) (img : Image) : (s.launch img).mem = img.mem := rfl
@[simp] theorem launch_prog (s : State) (img : Image) : (s.launch img).prog = img.prog := rfl
@[simp] theorem launch_log (s : State) (img : Image) : (s.launch img).log = s.log := rfl
@[simp] theorem launch_symtab (s : State) (img : Image) : (s.launch img).symtab = img.symtab := rfl
@[simp] theorem launch_dataPtr (s : State) (img : Image) : (s.launch img).dataPtr = img.dataPtr := rfl
@[simp] theorem launch_reg (s : State) (img : Image) (r : Reg) : (s.launch img).reg r = State.reset.reg r := by
  cases r <;> rfl

/-- A write to the memory field leaves every register. -/
@[simp] theorem reg_withMem (s : State) (m : Memory) (r : Reg) : ({ s with mem := m } : State).reg r = s.reg r := by
  cases r <;> rfl

/-- Register files that read the same are the same data. -/
theorem regs_ext {s t : State} (h : ∀ r, t.reg r = s.reg r) : t.regs = s.regs := by
  obtain ⟨⟨_, _, _, _, _, _, _, _, _⟩, _, _, _, _, _, _, _⟩ := s
  obtain ⟨⟨_, _, _, _, _, _, _, _, _⟩, _, _, _, _, _, _, _⟩ := t
  have h1 := h .v0
  have h2 := h .a0
  have h3 := h .t0
  have h4 := h .t1
  have h5 := h .t2
  have h6 := h .t3
  have h7 := h .sp
  have h8 := h .hi
  have h9 := h .lo
  simp only [State.reg] at h1 h2 h3 h4 h5 h6 h7 h8 h9
  simp only [h1, h2, h3, h4, h5, h6, h7, h8, h9]

end Sys2Proof.Machine
end

