-- ==== Sys2Proof/Laws/Bits.lean ====
section
/-! SUPPORT. The bits of an integer (00_scope.md rule R8) and of the bitwise operations. -/

namespace Sys2Proof.Machine

theorem bitOf_ofNat (m i : Nat) : bitOf (.ofNat m) i = if m.testBit i then 1 else 0 := by
  have h : bitOf (.ofNat m) i = ((m / 2 ^ i % 2 : Nat) : Int) := by
    simp [bitOf]
  rw [h, Nat.testBit_eq_decide_div_mod_eq]
  have := Nat.mod_two_eq_zero_or_one (m / 2 ^ i)
  rcases this with h | h <;> simp [h]

/-- The bits of `-(m+1)` are the complements of `m`'s. -/
theorem bitOf_negSucc (m i : Nat) : bitOf (.negSucc m) i = if m.testBit i then 0 else 1 := by
  have h : bitOf (.negSucc m) i = 1 - ((m / 2 ^ i % 2 : Nat) : Int) := by
    have hp : (0 : Int) < 2 ^ i := by positivity
    rw [bitOf, Int.negSucc_ediv m hp]
    have : (m : Int).ediv (2 ^ i) = ((m / 2 ^ i : Nat) : Int) := by
      show (m : Int) / 2 ^ i = _
      simp
    rw [this]
    omega
  rw [h, Nat.testBit_eq_decide_div_mod_eq]
  have := Nat.mod_two_eq_zero_or_one (m / 2 ^ i)
  rcases this with h | h <;> simp [h]

/-- The bit of `AND` (rule R8). -/
theorem bitOf_bitAnd (a b : Int) (i : Nat) : bitOf (bitAnd a b) i = bitOf a i * bitOf b i := by
  cases a with
  | ofNat m =>
    cases b with
    | ofNat n =>
      simp only [bitAnd, bitOf_ofNat, Nat.testBit_and]
      cases m.testBit i <;> cases n.testBit i <;> rfl
    | negSucc n =>
      simp only [bitAnd, bitOf_ofNat, bitOf_negSucc, Nat.testBit_and, Nat.testBit_xor]
      cases m.testBit i <;> cases n.testBit i <;> rfl
  | negSucc m =>
    cases b with
    | ofNat n =>
      simp only [bitAnd, bitOf_ofNat, bitOf_negSucc, Nat.testBit_and, Nat.testBit_xor]
      cases m.testBit i <;> cases n.testBit i <;> rfl
    | negSucc n =>
      simp only [bitAnd, bitOf_negSucc, Nat.testBit_or]
      cases m.testBit i <;> cases n.testBit i <;> rfl

/-- The bit of `OR` (rule R8). -/
theorem bitOf_bitOr (a b : Int) (i : Nat) : bitOf (bitOr a b) i = max (bitOf a i) (bitOf b i) := by
  cases a with
  | ofNat m =>
    cases b with
    | ofNat n =>
      simp only [bitOr, bitOf_ofNat, Nat.testBit_or]
      cases m.testBit i <;> cases n.testBit i <;> rfl
    | negSucc n =>
      simp only [bitOr, bitOf_ofNat, bitOf_negSucc, Nat.testBit_and, Nat.testBit_xor]
      cases m.testBit i <;> cases n.testBit i <;> rfl
  | negSucc m =>
    cases b with
    | ofNat n =>
      simp only [bitOr, bitOf_ofNat, bitOf_negSucc, Nat.testBit_and, Nat.testBit_xor]
      cases m.testBit i <;> cases n.testBit i <;> rfl
    | negSucc n =>
      simp only [bitOr, bitOf_negSucc, Nat.testBit_and]
      cases m.testBit i <;> cases n.testBit i <;> rfl

end Sys2Proof.Machine
end

