-- ==== Sys2Proof/Laws/Decode.lean ====
section
/-! SUPPORT. The token encoder against the token decoder, piece by piece: numerals, register names, the first
operand of `sw`; and the register numbers of the rendering. -/

namespace Sys2Proof

/-! ### Numerals -/

theorem digitValue_digit {d : Nat} (h : d < 10) : digitValue (Char.ofNat (48 + d)) = some d := by
  revert d
  decide

theorem digitsOnto_append (n : Nat) (xs ys : List Char) :
    digitsOnto n (xs ++ ys) = (digitsOnto n xs).bind (fun m => digitsOnto m ys) := by
  induction xs generalizing n with
  | nil => rfl
  | cons c xs ih =>
    simp only [List.cons_append, digitsOnto]
    cases digitValue c with
    | none => rfl
    | some d => exact ih _

/-- Reading a numeral gives the number, given fuel for its digits. -/
theorem digitsOnto_naturalDigits (fuel n : Nat) (h : n ≤ fuel) :
    digitsOnto 0 (naturalDigits fuel n) = some n := by
  induction fuel generalizing n with
  | zero =>
    obtain rfl : n = 0 := by omega
    rfl
  | succ fuel ih =>
    simp only [naturalDigits]
    split
    · rename_i hn
      simp [digitsOnto, digitValue_digit hn]
    · rename_i hn
      rw [digitsOnto_append, ih (n / 10) (by omega)]
      have hd : n % 10 < 10 := by omega
      simp only [Option.bind_some, digitsOnto, digitValue_digit hd, Option.some.injEq]
      omega

theorem naturalDigits_ne_nil (fuel n : Nat) : naturalDigits fuel n ≠ [] := by
  cases fuel with
  | zero => simp [naturalDigits]
  | succ fuel =>
    simp only [naturalDigits]
    split <;> simp

theorem naturalLiteral_numeral (n : Nat) : naturalLiteral (naturalNumeral n) = some n := by
  have h := digitsOnto_naturalDigits n n le_rfl
  have hne := naturalDigits_ne_nil n n
  unfold naturalNumeral
  cases hd : naturalDigits n n with
  | nil => exact absurd hd hne
  | cons c cs => rw [hd] at h; exact h

theorem digit_isDigit {d : Nat} (h : d < 10) :
    48 ≤ (Char.ofNat (48 + d)).toNat ∧ (Char.ofNat (48 + d)).toNat ≤ 57 := by
  revert d
  decide

/-- A numeral is made of digits. -/
theorem naturalDigits_isDigit (fuel n : Nat) :
    ∀ c ∈ naturalDigits fuel n, 48 ≤ c.toNat ∧ c.toNat ≤ 57 := by
  induction fuel generalizing n with
  | zero =>
    intro c hc
    obtain rfl : c = Char.ofNat (48 + n % 10) := by simpa [naturalDigits] using hc
    exact digit_isDigit (by omega)
  | succ fuel ih =>
    intro c hc
    simp only [naturalDigits] at hc
    split at hc
    · rename_i hn
      obtain rfl : c = Char.ofNat (48 + n) := by simpa using hc
      exact digit_isDigit hn
    · rcases List.mem_append.1 hc with hc | hc
      · exact ih _ c hc
      · obtain rfl : c = Char.ofNat (48 + n % 10) := by simpa using hc
        exact digit_isDigit (by omega)

theorem intToken_naturalNumeral (n : Nat) : intToken (naturalNumeral n) = some (n : Int) := by
  have h := naturalLiteral_numeral n
  have hd := naturalDigits_isDigit n n
  have hne := naturalDigits_ne_nil n n
  unfold naturalNumeral at h ⊢
  cases hcs : naturalDigits n n with
  | nil => exact absurd hcs hne
  | cons c cs =>
    rw [hcs] at h hd
    have hc := hd c (by simp)
    have h1 : c ≠ '-' := by rintro rfl; exact absurd hc.1 (by decide)
    have h2 : c ≠ '+' := by rintro rfl; exact absurd hc.1 (by decide)
    simp [intToken, h1, h2, h]

/-- An integer's numeral reads back as the integer (30_encoding.md rule R74). -/
theorem intToken_intNumeral (n : Int) : intToken (intNumeral n) = some n := by
  cases n with
  | ofNat n => exact intToken_naturalNumeral n
  | negSucc n =>
    simp [intNumeral, intToken, naturalLiteral_numeral, Int.negSucc_eq]

/-! ### Registers -/

/-- A register's name decodes to the register, and to no other (rule R73). -/
theorem regToken_name (r : Reg) : regToken r.name = some r := by cases r <;> decide

theorem regToken_eq_some {t : Token} {r : Reg} : regToken t = some r ↔ t = r.name := by
  constructor
  · intro h
    have := List.find?_some h
    exact (beq_iff_eq.1 this).symm
  · rintro rfl
    exact regToken_name r

theorem regToken_eq_none {t : Token} : regToken t = none ↔ ∀ r, t ≠ Reg.name r := by
  constructor
  · rintro h r rfl
    rw [regToken_name] at h
    exact absurd h (by simp)
  · intro h
    cases hr : regToken t with
    | none => rfl
    | some r => exact absurd (regToken_eq_some.1 hr) (h r)

theorem regToken_naturalNumeral (n : Nat) : regToken (naturalNumeral n) = none := by
  rw [regToken_eq_none]
  intro r h
  have hd := naturalDigits_isDigit n n
  unfold naturalNumeral at h
  rw [h] at hd
  have hc := hd '$' (by cases r <;> decide)
  exact absurd hc.1 (by decide)

theorem regToken_intNumeral (n : Int) : regToken (intNumeral n) = none := by
  cases n with
  | ofNat n => exact regToken_naturalNumeral n
  | negSucc n =>
    rw [regToken_eq_none]
    intro r h
    cases r <;> exact absurd (List.cons.inj h).1 (by decide)

/-- The first operand of `sw` decodes back, in both forms (rule R84). -/
theorem storeSourceToken_token (src : StoreSource) : storeSourceToken src.token = some src := by
  cases src with
  | reg r => simp [storeSourceToken, StoreSource.token, regToken_name]
  | lit v => simp [storeSourceToken, StoreSource.token, regToken_intNumeral, intToken_intNumeral]

/-! ### Register numbers of the rendering -/

/-- What a field decodes to is a register with that number (rule R78). -/
theorem number_of_register {p : RegNums} {f : BitVec 5} {r : Reg} (h : p.register f = some r) :
    p.number r = f := by
  unfold RegNums.register at h
  repeat' split at h
  all_goals first
    | (injection h with h; subst h; simp only [RegNums.number]; first | assumption | (symm; assumption))
    | simp at h

/-- Where the open numbers collide with no other, a register's number decodes to it. -/
theorem register_number {p : RegNums} (hp : p.wf = true) (r : Reg) : p.register (p.number r) = some r := by
  simp only [RegNums.wf, fixedRegNums, Bool.and_eq_true, decide_eq_true_eq, List.mem_cons, List.not_mem_nil,
    or_false, not_or] at hp
  obtain ⟨⟨hne, h1, h2, h3, h4, h5, h6, h7, h8⟩, l1, l2, l3, l4, l5, l6, l7, l8⟩ := hp
  cases r with
  | hi =>
    show p.register p.hi = _
    rw [RegNums.register, if_neg h1, if_neg h2, if_neg h3, if_neg h4, if_neg h5, if_neg h6, if_neg h7,
      if_neg h8, if_pos rfl]
  | lo =>
    show p.register p.lo = _
    rw [RegNums.register, if_neg l1, if_neg l2, if_neg l3, if_neg l4, if_neg l5, if_neg l6, if_neg l7,
      if_neg l8, if_neg (Ne.symm hne), if_pos rfl]
  | _ => rfl

end Sys2Proof
end

