-- ==== Sys2Proof/Laws/Memory.lean ====
section
/-! SUPPORT. The laws of the data memory: read after write, and that every memory operation keeps the
canonical form. -/

namespace Sys2Proof.Machine

/-- In canonical form an address below every listed one reads as unlisted. -/
theorem get_of_below {m : Memory} {a : Nat} (h : ∀ c ∈ m, a < c.1) : Memory.get m a = Config.unlistedCell := by
  induction m with
  | nil => rfl
  | cons c m ih =>
    have hc := h c (by simp)
    have : a ≠ c.1 := by omega
    simp only [Memory.get, this, if_false]
    exact ih (fun d hd => h d (by simp [hd]))

theorem get_put_of_ne (m : Memory) {a b : Nat} (v : Int) (h : b ≠ a) :
    Memory.get (Memory.put m a v) b = Memory.get m b := by
  induction m with
  | nil =>
    simp only [Memory.put]
    split <;> simp [Memory.get, h]
  | cons c m ih =>
    obtain ⟨k, w⟩ := c
    simp only [Memory.put]
    split
    · split <;> simp [Memory.get, h]
    · split
      · rename_i hk
        subst hk
        split <;> simp [Memory.get, h]
      · simp only [Memory.get]
        split
        · rfl
        · exact ih

theorem get_put_self {m : Memory} (hm : m.Pairwise (fun c d => c.1 < d.1)) (a : Nat) (v : Int) :
    Memory.get (Memory.put m a v) a = v := by
  induction m with
  | nil =>
    simp only [Memory.put]
    split
    · rename_i hv; simp [Memory.get, hv]
    · simp [Memory.get]
  | cons c m ih =>
    obtain ⟨k, w⟩ := c
    rw [List.pairwise_cons] at hm
    simp only [Memory.put]
    split
    · rename_i hak
      split
      · rename_i hv
        rw [hv]
        apply get_of_below
        intro d hd
        rcases List.mem_cons.1 hd with rfl | hd
        · exact hak
        · exact lt_trans hak (hm.1 d hd)
      · simp [Memory.get]
    · split
      · rename_i hak
        subst hak
        split
        · rename_i hv
          rw [hv]
          exact get_of_below hm.1
        · simp [Memory.get]
      · rename_i h1 h2
        simp only [Memory.get, h2, if_false]
        exact ih hm.2

/-- A cell of a written memory is the written one or an old one at another address. -/
theorem mem_put {m : Memory} {a : Nat} {v : Int} {c : Cell} (h : c ∈ Memory.put m a v) :
    (c = (a, v) ∧ v ≠ Config.unlistedCell) ∨ c ∈ m := by
  induction m with
  | nil =>
    simp only [Memory.put] at h
    split at h
    · exact absurd h (by simp)
    · rename_i hv; exact .inl ⟨by simpa using h, hv⟩
  | cons d m ih =>
    obtain ⟨k, w⟩ := d
    simp only [Memory.put] at h
    split at h
    · split at h
      · exact .inr h
      · rename_i hv
        rcases List.mem_cons.1 h with rfl | h
        · exact .inl ⟨rfl, hv⟩
        · exact .inr h
    · split at h
      · split at h
        · exact .inr (List.mem_cons_of_mem _ h)
        · rename_i hv
          rcases List.mem_cons.1 h with rfl | h
          · exact .inl ⟨rfl, hv⟩
          · exact .inr (List.mem_cons_of_mem _ h)
      · rcases List.mem_cons.1 h with rfl | h
        · exact .inr (by simp)
        · rcases ih h with h | h
          · exact .inl h
          · exact .inr (List.mem_cons_of_mem _ h)

theorem put_rising {m : Memory} (hm : m.Pairwise (fun c d => c.1 < d.1)) (a : Nat) (v : Int) :
    (Memory.put m a v).Pairwise (fun c d => c.1 < d.1) := by
  induction m with
  | nil =>
    simp only [Memory.put]
    split <;> simp
  | cons d m ih =>
    obtain ⟨k, w⟩ := d
    have hm' := hm
    rw [List.pairwise_cons] at hm
    simp only [Memory.put]
    split
    · rename_i hak
      split
      · exact hm'
      · refine List.pairwise_cons.2 ⟨fun d hd => ?_, hm'⟩
        rcases List.mem_cons.1 hd with rfl | hd
        · exact hak
        · exact lt_trans hak (hm.1 d hd)
    · split
      · rename_i hak
        subst hak
        split
        · exact hm.2
        · exact List.pairwise_cons.2 ⟨hm.1, hm.2⟩
      · rename_i h1 h2
        refine List.pairwise_cons.2 ⟨fun d hd => ?_, ih hm.2⟩
        rcases mem_put hd with ⟨rfl, _⟩ | hd
        · show k < a
          omega
        · exact hm.1 d hd

/-- A write keeps the canonical form. -/
theorem put_wf {m : Memory} (hm : Memory.wf m) {a : Nat} (ha : a < Config.memSize) (v : Int) :
    Memory.wf (Memory.put m a v) := by
  refine ⟨put_rising hm.1 a v, fun c hc => ?_⟩
  rcases mem_put hc with ⟨rfl, hv⟩ | hc
  · exact ⟨ha, hv⟩
  · exact hm.2 c hc

theorem reset_mem_wf : Memory.wf State.reset.mem := by simp [State.reset, Memory.wf]

/-! ### Bounds-checked access -/

theorem inBounds_iff (a : Int) : inBounds a = true ↔ 0 ≤ a ∧ a < 256 := by
  rw [inBounds, Bool.and_eq_true, decide_eq_true_iff, decide_eq_true_iff]
  rfl

theorem memRead_ok {m : Memory} {a : Int} (h0 : 0 ≤ a) (h1 : a < 256) :
    memRead m a = .ok (Memory.get m a.toNat) := by
  simp [memRead, (inBounds_iff a).2 ⟨h0, h1⟩]

theorem memRead_error {m : Memory} {a : Int} (h : a < 0 ∨ 256 ≤ a) : memRead m a = .error .memoryFault := by
  have : ¬ inBounds a = true := by rw [inBounds_iff]; omega
  simp [memRead, this]

theorem memWrite_ok {m : Memory} {a : Int} (v : Int) (h0 : 0 ≤ a) (h1 : a < 256) :
    memWrite m a v = .ok (Memory.put m a.toNat v) := by
  simp [memWrite, (inBounds_iff a).2 ⟨h0, h1⟩]

theorem memWrite_error {m : Memory} {a : Int} (v : Int) (h : a < 0 ∨ 256 ≤ a) :
    memWrite m a v = .error .memoryFault := by
  have : ¬ inBounds a = true := by rw [inBounds_iff]; omega
  simp [memWrite, this]

/-- Everything a write can do. -/
theorem memWrite_cases {m m' : Memory} {a v : Int} (h : memWrite m a v = .ok m') :
    0 ≤ a ∧ a < 256 ∧ m' = Memory.put m a.toNat v := by
  by_cases hb : inBounds a = true
  · have := (inBounds_iff a).1 hb
    simp only [memWrite, hb, if_true, Except.ok.injEq] at h
    exact ⟨this.1, this.2, h.symm⟩
  · simp [memWrite, hb] at h

/-- Everything a faulting write can do. -/
theorem memWrite_fault_cases {m : Memory} {a v : Int} {e : FaultReason} (h : memWrite m a v = .error e) :
    e = .memoryFault ∧ (a < 0 ∨ 256 ≤ a) := by
  by_cases hb : inBounds a = true
  · simp [memWrite, hb] at h
  · simp only [memWrite, hb] at h
    rw [inBounds_iff] at hb
    exact ⟨by simpa using h.symm, by omega⟩

/-- Everything a read can do. -/
theorem memRead_cases {m : Memory} {a v : Int} (h : memRead m a = .ok v) :
    0 ≤ a ∧ a < 256 ∧ v = Memory.get m a.toNat := by
  by_cases hb : inBounds a = true
  · have := (inBounds_iff a).1 hb
    simp only [memRead, hb, if_true, Except.ok.injEq] at h
    exact ⟨this.1, this.2, h.symm⟩
  · simp [memRead, hb] at h

/-- Everything a faulting read can do. -/
theorem memRead_fault_cases {m : Memory} {a : Int} {e : FaultReason} (h : memRead m a = .error e) :
    e = .memoryFault ∧ (a < 0 ∨ 256 ≤ a) := by
  by_cases hb : inBounds a = true
  · simp [memRead, hb] at h
  · simp only [memRead, hb] at h
    rw [inBounds_iff] at hb
    exact ⟨by simpa using h.symm, by omega⟩

/-- A write keeps the canonical form, at any address. -/
theorem memWrite_wf {m m' : Memory} {a v : Int} (hm : Memory.wf m) (h : memWrite m a v = .ok m') :
    Memory.wf m' := by
  obtain ⟨h0, h1, rfl⟩ := memWrite_cases h
  exact put_wf hm (by simp only [Config.memSize]; omega) v

/-- What a read gives after a write: the written value at its address, and elsewhere what it was. -/
theorem memRead_memWrite {m m' : Memory} {a v : Int} (hm : Memory.wf m) (h : memWrite m a v = .ok m')
    (b : Int) : memRead m' b = if b = a then .ok v else memRead m b := by
  obtain ⟨h0, h1, rfl⟩ := memWrite_cases h
  split
  · rename_i hb
    subst hb
    rw [memRead_ok h0 h1, get_put_self hm.1]
  · rename_i hb
    by_cases hin : 0 ≤ b ∧ b < 256
    · rw [memRead_ok hin.1 hin.2, memRead_ok hin.1 hin.2, get_put_of_ne]
      omega
    · rw [memRead_error (by omega), memRead_error (by omega)]

/-! ### The string scan -/

/-- A scan's only fault is `MemoryFault`. -/
theorem scanString_fault {m : Memory} {n : Nat} {a : Int} {e : FaultReason}
    (h : scanString m n a = .error e) : e = .memoryFault := by
  induction n generalizing a e with
  | zero => simpa [scanString] using h.symm
  | succ n ih =>
    simp only [scanString] at h
    split at h
    · rename_i r hr
      obtain ⟨rfl, -⟩ := memRead_fault_cases hr
      simpa using h.symm
    · split at h
      · simp at h
      · split at h
        · rename_i r hr
          have hr' := ih hr
          subst hr'
          simpa using h.symm
        · simp at h

end Sys2Proof.Machine
end

