-- ==== Sys2Proof/Laws/Exec.lean ====
section
/-! SUPPORT. What the shared operations, the meanings and the step can do, said once: later proofs cite these
and unfold nothing. -/

namespace Sys2Proof.Machine

/-! ### The shared endings -/

theorem finish_ok {s t : State} {x : Except FaultReason State} (h : x = .ok t) :
    finish s x = .next t.complete := by rw [h]; rfl

theorem finish_error {s : State} {e : FaultReason} {x : Except FaultReason State} (h : x = .error e) :
    finish s x = .next (s.takeFault e) := by rw [h]; rfl

/-- Everything `finish` can do. -/
theorem finish_cases {s t : State} {x : Except FaultReason State} (h : finish s x = .next t) :
    (∃ u, x = .ok u ∧ t = u.complete) ∨ ∃ e, x = .error e ∧ t = s.takeFault e := by
  cases x with
  | ok u => exact .inl ⟨u, rfl, by injection h with h; exact h.symm⟩
  | error e => exact .inr ⟨e, rfl, by injection h with h; exact h.symm⟩

theorem finish_next (s : State) (x : Except FaultReason State) : ∃ t, finish s x = .next t := by
  cases x with
  | ok u => exact ⟨_, rfl⟩
  | error e => exact ⟨_, rfl⟩

theorem sameCells_of_mem {s t : State} (h : t.mem = s.mem) : SameCells s t := fun a => by rw [h]

/-- What `writeBack` does, in the words of the statements. -/
theorem writeBack_spec (s : State) (rd : Reg) (v : Int) :
    ∃ t, writeBack s rd v = .next t ∧ WritesRegister rd v s t := by
  refine ⟨_, rfl, fun h => ?_, ?_, fun r hr => ?_, sameCells_of_mem (by simp), ?_, ?_⟩
  · simp [reg_setReg, h]
  · simp
  · have hr : r ≠ rd := by simpa using hr
    simp [reg_setReg, hr]
  · simp [SameProgram]
  · simp [CompletesQuietly]

/-- What fault entry does, in the words of the statements. -/
theorem takeFault_spec (s : State) (e : FaultReason) : TakesFault e s (s.takeFault e) :=
  ⟨rfl, rfl, rfl, fun r _ => by simp, sameCells_of_mem rfl, rfl, rfl, rfl⟩

/-! ### The meanings -/

/-- Everything an instruction can do: write its destination register; for `mult` alone write `$LO` and `$HI`; for `sw`
alone write the cell at its address; for `syscall` alone emit an output event or halt; or take a
fault. -/
theorem exec_cases {i : Instr} {s t : State} (h : exec i s = .next t) :
    (∃ r v, destinations (.instr i) = [r] ∧ t = (s.setReg r v).complete) ∨
    (∃ a b v w, i = .mult a b ∧ t = ((s.setReg .lo v).setReg .hi w).complete) ∨
    (∃ src offset base m, i = .sw src offset base ∧
      memWrite s.mem (effectiveAddress s offset base) (storeValue s src) = .ok m ∧
      t = ({ s with mem := m } : State).complete) ∨
    (i = .syscall ∧ ∃ e, (∀ reason, e ≠ .fault reason) ∧ t = (s.emit e).complete) ∨
    (i = .syscall ∧ s.reg .v0 = 10 ∧ t = s.halt) ∨
    ∃ reason, t = s.takeFault reason := by
  have wb : ∀ {r v}, destinations (.instr i) = [r] → writeBack s r v = .next t →
      ∃ r v, destinations (.instr i) = [r] ∧ t = (s.setReg r v).complete := by
    intro r v hd h
    injection h with h
    exact ⟨r, v, hd, h.symm⟩
  cases i with
  | add rd rs rt => exact .inl (wb rfl h)
  | sub rd rs rt => exact .inl (wb rfl h)
  | and rd rs rt => exact .inl (wb rfl h)
  | or rd rs rt => exact .inl (wb rfl h)
  | slt rd rs rt => exact .inl (wb rfl h)
  | addi rt rs imm => exact .inl (wb rfl h)
  | slti rt rs imm => exact .inl (wb rfl h)
  | lui rt imm => exact .inl (wb rfl h)
  | mult rs rt =>
    injection h with h
    exact .inr (.inl ⟨rs, rt, _, _, rfl, h.symm⟩)
  | sll rd rt shamt =>
    rcases finish_cases h with ⟨u, hu, rfl⟩ | ⟨e, -, rfl⟩
    · left
      simp only [shiftAmount] at hu
      split at hu
      · simp [bind, Except.bind] at hu
      · injection hu with hu
        exact ⟨_, _, rfl, by rw [← hu]⟩
    · exact .inr (.inr (.inr (.inr (.inr ⟨e, rfl⟩))))
  | lw rt offset base =>
    rcases finish_cases h with ⟨u, hu, rfl⟩ | ⟨e, -, rfl⟩
    · left
      cases hr : memRead s.mem (effectiveAddress s offset base) with
      | error e => simp [hr, bind, Except.bind] at hu
      | ok v =>
        rw [hr] at hu
        injection hu with hu
        exact ⟨_, _, rfl, by rw [← hu]⟩
    · exact .inr (.inr (.inr (.inr (.inr ⟨e, rfl⟩))))
  | sw src offset base =>
    rcases finish_cases h with ⟨u, hu, rfl⟩ | ⟨e, -, rfl⟩
    · right; right; left
      cases hr : memWrite s.mem (effectiveAddress s offset base) (storeValue s src) with
      | error e => simp [hr, bind, Except.bind] at hu
      | ok m =>
        rw [hr] at hu
        injection hu with hu
        exact ⟨src, offset, base, m, rfl, hr, by rw [← hu]⟩
    · exact .inr (.inr (.inr (.inr (.inr ⟨e, rfl⟩))))
  | syscall =>
    simp only [exec, execSyscall] at h
    split at h
    · injection h with h
      exact .inr (.inr (.inr (.inl ⟨rfl, _, fun _ => by simp, h.symm⟩)))
    · split at h
      · rcases finish_cases h with ⟨u, hu, rfl⟩ | ⟨e, -, rfl⟩
        · cases hr : scanString s.mem (Config.memSize + 1) (s.reg .a0) with
          | error e => simp [hr, bind, Except.bind] at hu
          | ok cs =>
            rw [hr] at hu
            injection hu with hu
            exact .inr (.inr (.inr (.inl ⟨rfl, .outStr cs, fun _ => by simp, by rw [← hu]⟩)))
        · exact .inr (.inr (.inr (.inr (.inr ⟨e, rfl⟩))))
      · split at h
        · rename_i h10
          injection h with h
          exact .inr (.inr (.inr (.inr (.inl ⟨rfl, h10, h.symm⟩))))
        · injection h with h
          exact .inr (.inr (.inr (.inr (.inr ⟨_, h.symm⟩))))

/-! ### The step -/

/-- Everything a step with a successor can be: enabled, and the execution of the decoded Instruction. -/
theorem step_cases {s t : State} (h : step s = .next t) :
    s.status = .running ∧ ∃ ins, s.prog[s.pc]? = some ins ∧ execKind (decode ins) s = .next t := by
  simp only [step, fetch] at h
  split at h
  · simp at h
  · rename_i ins hf
    split at hf
    · simp at hf
    · simp at hf
    · rename_i hs
      split at hf
      · rename_i ins' hp
        injection hf with hf
        subst hf
        exact ⟨hs, _, hp, h⟩
      · simp at hf

/-- The step when it is enabled. -/
theorem step_of_enabled {s : State} {ins : Instruction} (hs : s.status = .running)
    (hp : s.prog[s.pc]? = some ins) : step s = execKind (decode ins) s := by
  simp [step, fetch, hs, hp]

/-- Everything an executed kind can do: an instruction's effect, or fault entry. -/
theorem execKind_cases {k : Kind} {s t : State} (h : execKind k s = .next t) :
    (∃ i, k = .instr i ∧ exec i s = .next t) ∨
    ((∀ i, k ≠ .instr i) ∧ ∃ reason, t = s.takeFault reason) := by
  cases k with
  | instr i => exact .inl ⟨i, rfl, h⟩
  | unknown m => injection h with h; exact .inr ⟨fun _ => by simp, _, h.symm⟩
  | malformed m ops => injection h with h; exact .inr ⟨fun _ => by simp, _, h.symm⟩

end Sys2Proof.Machine
end

