-- ==== Sys2Proof/Laws/Loader.lean ====
section
/-! SUPPORT. The loader: what each kind of line does to the image. -/

namespace Sys2Proof.Machine

/-- Writing data keeps the canonical form and stays within the 256 cells. -/
theorem writeCells_wf {vs : List Int} : ∀ {m m' : Memory} {ptr : Nat}, Memory.wf m → ptr ≤ 256 →
    writeCells m ptr vs = .ok m' → Memory.wf m' ∧ ptr + vs.length ≤ 256 := by
  induction vs with
  | nil =>
    intro m m' ptr hm hp h
    injection h with h
    exact ⟨h ▸ hm, by simpa using hp⟩
  | cons v vs ih =>
    intro m m' ptr hm hp h
    simp only [writeCells] at h
    split at h
    · rename_i hlt
      have hlt' : ptr < 256 := hlt
      obtain ⟨h1, h2⟩ := ih (put_wf hm hlt v) (by omega) h
      exact ⟨h1, by simp; omega⟩
    · simp at h

/-- A data line that loads writes its values at the data pointer, advances it and records one label. -/
theorem loadDataLine_cases {img img' : Image} {line : List Char} (h : loadDataLine img line = .ok img') :
    ∃ vs label, writeCells img.mem img.dataPtr vs = .ok img'.mem ∧
      img'.dataPtr = img.dataPtr + vs.length ∧ img'.symtab = img.symtab ++ [(label, img.dataPtr)] ∧
      img'.prog = img.prog ∧ img'.segment = img.segment := by
  unfold loadDataLine at h
  split at h
  · simp at h
  · rename_i rest _
    cases hc : directiveCells (trim rest) with
    | error e => simp [hc, bind, Except.bind] at h
    | ok vs =>
      simp only [hc, bind, Except.bind] at h
      cases hw : writeCells img.mem img.dataPtr vs with
      | error e => simp [hw] at h
      | ok m =>
        simp only [hw] at h
        injection h with h
        subst h
        exact ⟨vs, _, hw, rfl, rfl, rfl, rfl⟩

/-- No installed Instruction has the mnemonic `la`. -/
theorem expand_ne_la {symtab : List (Token × Nat)} {mnemonic : Token} {operands : List Token}
    {ins : Instruction} (h : expand symtab mnemonic operands = .ok ins) : ins.mnemonic ≠ "la".toList := by
  unfold expand at h
  split at h
  · split at h
    · rename_i dst label
      cases ha : labelAddress symtab label with
      | error e => simp [ha, bind, Except.bind] at h
      | ok a =>
        simp only [ha, bind, Except.bind] at h
        injection h with h
        subst h
        simp only [laExpansion]; decide
    · simp at h
  · rename_i hm
    injection h with h
    subst h
    exact hm

/-- An instruction line that loads leaves the data alone and appends at most one Instruction. -/
theorem loadTextLine_cases {img img' : Image} {line : List Char} (h : loadTextLine img line = .ok img') :
    img'.mem = img.mem ∧ img'.dataPtr = img.dataPtr ∧ img'.symtab = img.symtab ∧
      img'.segment = img.segment ∧
      (img'.prog = img.prog ∨ ∃ ins, img'.prog = img.prog ++ [ins] ∧ ins.mnemonic ≠ "la".toList) := by
  unfold loadTextLine at h
  split at h
  · split at h <;> injection h with h <;> subst h
    · exact ⟨rfl, rfl, rfl, rfl, .inr ⟨_, rfl, by simp⟩⟩
    · exact ⟨rfl, rfl, rfl, rfl, .inl rfl⟩
  · rename_i m ops _
    cases he : expand img.symtab m ops with
    | error e => simp [he, bind, Except.bind] at h
    | ok ins =>
      simp only [he, bind, Except.bind] at h
      injection h with h
      subst h
      exact ⟨rfl, rfl, rfl, rfl, .inr ⟨_, rfl, expand_ne_la he⟩⟩

end Sys2Proof.Machine
end

