-- ==== Sys2Proof/Laws/PerInstr.lean ====
section
/-! SUPPORT. Statements about every instruction as syntax, one lemma per constructor. -/

namespace Sys2Proof.Laws

/-- The operand counts of 30_encoding.md rule R71. -/
def operandCount : Instr → Nat
  | .add _ _ _ => 3
  | .sub _ _ _ => 3
  | .and _ _ _ => 3
  | .or _ _ _ => 3
  | .slt _ _ _ => 3
  | .mult _ _ => 2
  | .sll _ _ _ => 3
  | .syscall => 0
  | .addi _ _ _ => 3
  | .slti _ _ _ => 3
  | .lui _ _ => 2
  | .lw _ _ _ => 3
  | .sw _ _ _ => 3

/-- The token form of an instruction has as many operand tokens as rule R71 gives its mnemonic. -/
def OperandCount.Statement (i : Instr) : Prop := i.tokens.operands.length = operandCount i

theorem OperandCount.add (rd rs rt : Reg) : OperandCount.Statement (.add rd rs rt) := rfl
theorem OperandCount.sub (rd rs rt : Reg) : OperandCount.Statement (.sub rd rs rt) := rfl
theorem OperandCount.and (rd rs rt : Reg) : OperandCount.Statement (.and rd rs rt) := rfl
theorem OperandCount.or (rd rs rt : Reg) : OperandCount.Statement (.or rd rs rt) := rfl
theorem OperandCount.slt (rd rs rt : Reg) : OperandCount.Statement (.slt rd rs rt) := rfl
theorem OperandCount.mult (rs rt : Reg) : OperandCount.Statement (.mult rs rt) := rfl
theorem OperandCount.sll (rd rt : Reg) (shamt : Int) : OperandCount.Statement (.sll rd rt shamt) := rfl
theorem OperandCount.syscall : OperandCount.Statement .syscall := rfl
theorem OperandCount.addi (rt rs : Reg) (imm : Int) : OperandCount.Statement (.addi rt rs imm) := rfl
theorem OperandCount.slti (rt rs : Reg) (imm : Int) : OperandCount.Statement (.slti rt rs imm) := rfl
theorem OperandCount.lui (rt : Reg) (imm : Int) : OperandCount.Statement (.lui rt imm) := rfl
theorem OperandCount.lw (rt : Reg) (offset : Int) (base : Reg) :
    OperandCount.Statement (.lw rt offset base) := rfl
theorem OperandCount.sw (src : StoreSource) (offset : Int) (base : Reg) :
    OperandCount.Statement (.sw src offset base) := rfl

end Sys2Proof.Laws
end

