-- ==== Sys2Proof/Laws/Step.lean ====
section
/-! SUPPORT. The step and runs: when a step is enabled, what it never touches, how runs are put together,
and the two outcomes of a load and of a store. -/

namespace Sys2Proof.Machine

/-- A step that answers a next state was enabled. -/
theorem step_enabled {s t : State} (h : step s = .next t) : s.Enabled := by
  obtain ⟨hr, ins, hp, -⟩ := step_cases h
  exact ⟨hr, (List.getElem?_eq_some_iff.1 hp).1⟩

/-- No step changes the instruction store or the loader's state. -/
theorem step_sameProgram {s t : State} (h : step s = .next t) : SameProgram s t := by
  obtain ⟨hr, ins, hp, hk⟩ := step_cases h
  rcases execKind_cases hk with ⟨i, -, hi⟩ | ⟨-, e, rfl⟩
  · rcases exec_cases hi with ⟨r, v, -, rfl⟩ | ⟨a, b, v, w, -, rfl⟩ | ⟨src, off, base, m, -, hm, rfl⟩ |
      ⟨-, e, he, rfl⟩ | ⟨-, -, rfl⟩ | ⟨e, rfl⟩ <;> simp [SameProgram]
  · simp [SameProgram]

/-- No run changes the instruction store or the loader's state. -/
theorem steps_sameProgram {n : Nat} {s t : State} (h : Steps n s t) : SameProgram s t := by
  induction h with
  | refl => exact ⟨rfl, rfl, rfl⟩
  | tail _ hs ih =>
    obtain ⟨h1, h2, h3⟩ := step_sameProgram hs
    exact ⟨h1.trans ih.1, h2.trans ih.2.1, h3.trans ih.2.2⟩

/-- A step before a run. -/
theorem steps_head {n : Nat} {s t u : State} (h : step s = .next t) (hs : Steps n t u) :
    Steps (n + 1) s u := by
  induction hs with
  | refl => exact .tail (.refl s) h
  | tail _ hst ih => exact .tail (ih h) hst

/-- One run after another. -/
theorem steps_trans {n m : Nat} {s t u : State} (h : Steps n s t) (h' : Steps m t u) :
    Steps (n + m) s u := by
  induction h' with
  | refl => exact h
  | tail _ hs ih => exact .tail (ih h) hs

/-- `n` steps within the first `n + m` of a bounded run. -/
theorem stepsUpTo_add {n : Nat} {s t : State} (h : Steps n s t) (m : Nat) :
    stepsUpTo (n + m) s = stepsUpTo m t := by
  induction h generalizing m with
  | refl => simp
  | tail _ hs ih =>
    rw [show ∀ k : Nat, k + 1 + m = k + (m + 1) from fun k => by omega, ih (m + 1)]
    simp only [stepsUpTo, hs]

/-- `lw` of a readable cell. -/
theorem exec_lw_ok {rt base : Reg} {offset v : Int} {s : State}
    (h : memRead s.mem (offset + s.reg base) = .ok v) : exec (.lw rt offset base) s = writeBack s rt v := by
  simp only [exec, execLw, effectiveAddress, h]; rfl

/-- `lw` of an address that raises. -/
theorem exec_lw_error {rt base : Reg} {offset : Int} {e : FaultReason} {s : State}
    (h : memRead s.mem (offset + s.reg base) = .error e) :
    exec (.lw rt offset base) s = .next (s.takeFault e) := by
  simp only [exec, execLw, effectiveAddress, h]; rfl

/-- `sw` to a writable cell. -/
theorem exec_sw_ok {src : StoreSource} {base : Reg} {offset : Int} {m : Memory} {s : State}
    (h : memWrite s.mem (effectiveAddress s offset base) (storeValue s src) = .ok m) :
    exec (.sw src offset base) s = .next ({ s with mem := m } : State).complete := by
  simp only [exec, execSw, h]; rfl

/-- `sw` to an address that raises. -/
theorem exec_sw_error {src : StoreSource} {base : Reg} {offset : Int} {e : FaultReason} {s : State}
    (h : memWrite s.mem (effectiveAddress s offset base) (storeValue s src) = .error e) :
    exec (.sw src offset base) s = .next (s.takeFault e) := by
  simp only [exec, execSw, h]; rfl

end Sys2Proof.Machine
end

