-- ==== Sys2Proof/Laws/Words.lean ====
section
/-! SUPPORT. The 32-bit layouts: the fields of a rendered word, a word from its fields, and the printed
fields. -/

namespace Sys2Proof

/-- The fields of an R-type word. -/
theorem fields_rType (op : BitVec 6) (rs rt rd sh : BitVec 5) (fn : BitVec 6) :
    let w := (Rendering.rType op rs rt rd sh fn).word
    w.extractLsb' 26 6 = op ∧ w.extractLsb' 21 5 = rs ∧ w.extractLsb' 16 5 = rt ∧
      w.extractLsb' 11 5 = rd ∧ w.extractLsb' 6 5 = sh ∧ w.extractLsb' 0 6 = fn := by
  simp only [Rendering.word]
  refine ⟨?_, ?_, ?_, ?_, ?_, ?_⟩ <;>
  · ext i hi
    simp only [BitVec.getElem_extractLsb', BitVec.getLsbD_append]
    grind

/-- The fields of an I-type word. -/
theorem fields_iType (op : BitVec 6) (rs rt : BitVec 5) (imm : BitVec 16) :
    let w := (Rendering.iType op rs rt imm).word
    w.extractLsb' 26 6 = op ∧ w.extractLsb' 21 5 = rs ∧ w.extractLsb' 16 5 = rt ∧
      w.extractLsb' 0 16 = imm := by
  simp only [Rendering.word]
  refine ⟨?_, ?_, ?_, ?_⟩ <;>
  · ext i hi
    simp only [BitVec.getElem_extractLsb', BitVec.getLsbD_append]
    grind

/-- A word is its R-type fields. -/
theorem word_eq_rType (w : BitVec 32) :
    w = (Rendering.rType (w.extractLsb' 26 6) (w.extractLsb' 21 5) (w.extractLsb' 16 5)
      (w.extractLsb' 11 5) (w.extractLsb' 6 5) (w.extractLsb' 0 6)).word := by
  apply BitVec.eq_of_getLsbD_eq
  intro i hi
  simp only [Rendering.word, BitVec.getLsbD_append, BitVec.getLsbD_extractLsb']
  grind

/-- A word is its I-type fields. -/
theorem word_eq_iType (w : BitVec 32) :
    w = (Rendering.iType (w.extractLsb' 26 6) (w.extractLsb' 21 5) (w.extractLsb' 16 5)
      (w.extractLsb' 0 16)).word := by
  apply BitVec.eq_of_getLsbD_eq
  intro i hi
  simp only [Rendering.word, BitVec.getLsbD_append, BitVec.getLsbD_extractLsb']
  grind

/-- The printed form of two fields side by side. -/
theorem fieldText_append {m n : Nat} (a : BitVec m) (b : BitVec n) :
    fieldText (m + n) (a ++ b) = fieldText m a ++ fieldText n b := by
  apply List.ext_getElem
  · simp [fieldText]
  · intro k h1 h2
    have hk : k < m + n := by simpa [fieldText] using h1
    simp only [fieldText, List.getElem_map, List.getElem_reverse, List.getElem_range, List.length_range,
      List.getElem_append, List.length_map, List.length_reverse, BitVec.getLsbD_append]
    by_cases hm : k < m
    · rw [dif_pos hm]
      have h1 : ¬ (m + n - 1 - k < n) := by omega
      have h2 : m + n - 1 - k - n = m - 1 - k := by omega
      simp only [h1, h2, if_false]
    · rw [dif_neg hm]
      have h1 : m + n - 1 - k < n := by omega
      have h2 : m + n - 1 - k = n - 1 - (k - m) := by omega
      simp only [h1, if_true]
      rw [h2]

end Sys2Proof
end

