-- ==== Sys2Proof/Tests/Slice0.lean ====
section
/-! SUPPORT. Tests: the worked examples and the vectors of 95_test_vectors.md (named by their letter and
number), well-formedness checks with ill-formed terms, decoding of words written out from the encoding
tables, and for each obligation with hypotheses a witness that meets them. -/

namespace Sys2Proof.Tests

open Sys2Proof.Machine

/-! ### Helpers -/

/-- The token form of a source instruction line (30_encoding.md rule R95). -/
def line (text : String) : Instruction :=
  match tokenise text.toList with
  | [] => ⟨[], []⟩
  | m :: ops => ⟨m, ops⟩

/-- The launch state with some registers and cells set, and one instruction at index 0. -/
def start (text : String) (regs : List (Reg × Int)) (cells : Memory) : State :=
  regs.foldl (fun s p => s.setReg p.1 p.2) { State.reset with mem := cells, prog := [line text] }

/-- The next state of one step satisfies `p`. -/
def stepTo (text : String) (regs : List (Reg × Int)) (cells : Memory) (p : State → Bool) : Bool :=
  match step (start text regs cells) with
  | .next t => p t
  | .fault _ => false
  | .refused _ => false

/-- Normal completion of the one instruction, with register `r` reading `v`. -/
def gives (r : Reg) (v : Int) (t : State) : Bool :=
  decide (t.reg r = v) && decide (t.pc = 1) && decide (t.status = .running) && decide (t.log = [])

/-- Fault entry: status, `pc` at the end, one event. -/
def faults (e : FaultReason) (t : State) : Bool :=
  decide (t.status = .faulted e) && decide (t.pc = 1) && decide (t.log = [.fault e])

/-- Two register numbers that collide with no other. -/
def nums : RegNums := ⟨16, 17⟩

/-- The state with that status and nothing else special. -/
def stopped (st : Status) : State := { State.reset with status := st }

/-! ### Well-formedness refuses ill-formed terms -/

theorem test_wf_empty_token : Token.wf [] = false := by decide
theorem test_wf_token_with_comma : Token.wf "a,b".toList = false := by decide
theorem test_wf_token_with_space : Token.wf "a b".toList = false := by decide
theorem test_wf_instruction_empty_mnemonic : Instruction.wf ⟨[], []⟩ = false := by decide
theorem test_wf_instruction_bad_operand : Instruction.wf ⟨"lw".toList, ["0($t0)".toList]⟩ = false := by decide
theorem test_wf_immediate_high : (Instr.addi .t0 .t0 32768).wf = false := by decide
theorem test_wf_immediate_low : (Instr.slti .t0 .t0 (-32769)).wf = false := by decide
theorem test_wf_lui_high : (Instr.lui .t0 65535).wf = false := by decide
theorem test_wf_offset_high : (Instr.lw .t0 32768 .sp).wf = false := by decide
theorem test_wf_store_offset_high : (Instr.sw (.reg .t0) 32768 .sp).wf = false := by decide
theorem test_wf_shamt_high : (Instr.sll .t0 .t0 32).wf = false := by decide
theorem test_wf_shamt_low : (Instr.sll .t0 .t0 (-1)).wf = false := by decide
theorem test_wf_literal_store : (Instr.sw (.lit 77) 0 .sp).wf = false := by decide
theorem test_wf_regnums_equal : RegNums.wf ⟨16, 16⟩ = false := by decide
theorem test_wf_regnums_hi_taken : RegNums.wf ⟨8, 17⟩ = false := by decide
theorem test_wf_regnums_lo_taken : RegNums.wf ⟨16, 0⟩ = false := by decide

/-! ### Words: section 2.8 (rules R77 to R85), bits as printed there -/

theorem test_word_B1_add :
    decodeTableWord 32 0b00000001000010010101000000100000 = some (.add .t2 .t0 .t1) := by decide
theorem test_word_B2_sub :
    decodeTableWord 32 0b00000001001010000101100000100010 = some (.sub .t3 .t1 .t0) := by decide
theorem test_word_B3_and :
    decodeTableWord 32 0b00000001000010010010000000100100 = some (.and .a0 .t0 .t1) := by decide
theorem test_word_B4_or :
    decodeTableWord 32 0b00000000100010100010000000100101 = some (.or .a0 .a0 .t2) := by decide
theorem test_word_B5_slt :
    decodeTableWord 32 0b00000001001010000001000000101010 = some (.slt .v0 .t1 .t0) := by decide
theorem test_word_B6_mult :
    decodeTableWord 32 0b00000001001010100000000000011000 = some (.mult .t1 .t2) := by decide
theorem test_word_B7_sll :
    decodeTableWord 32 0b00000000000010100101100100000000 = some (.sll .t3 .t2 4) := by decide
theorem test_word_S8_all_zero : decodeTableWord 32 0 = some (.sll .zero .zero 0) := by decide
theorem test_word_B8_syscall :
    decodeTableWord 32 0b00000000000000000000000000001100 = some .syscall := by decide
theorem test_word_B9_addi :
    decodeTableWord 32 0b00100000000010000000000000000111 = some (.addi .t0 .zero 7) := by decide
theorem test_word_I6_addi_negative :
    decodeTableWord 32 0b00100011101111011111111111111111 = some (.addi .sp .sp (-1)) := by decide
theorem test_word_B10_slti :
    decodeTableWord 32 0b00101001000010010000000000001010 = some (.slti .t1 .t0 10) := by decide
theorem test_word_B11_lui :
    decodeTableWord 32 0b00111100000010000000000000000001 = some (.lui .t0 1) := by decide
theorem test_word_B12_lw :
    decodeTableWord 32 0b10001111101010010000000000000001 = some (.lw .t1 1 .sp) := by decide
theorem test_word_B13_sw :
    decodeTableWord 32 0b10101111101010000000000000000000 = some (.sw (.reg .t0) 0 .sp) := by decide
/-- B17 with `REGNUM_LO = 17`. -/
theorem test_word_B17_lo : decodeWord nums (0x00005820 + 17 * 2 ^ 21) = some (.add .t3 .lo .zero) := by decide
/-- Rule R86: bits a row fixes at 0 must be 0 (`mult` with a destination, `syscall` with a code). -/
theorem test_word_fixed_bits : decodeTableWord 32 0x012A0818 = none ∧ decodeTableWord 32 0x0000004C = none := by
  decide
/-- Rule R85: an opcode of no instruction. -/
theorem test_word_no_row : decodeTableWord 32 0x08000000 = none := by decide

/-- B7: the printed groups. -/
theorem test_render_B7 : (rendering nums (.sll .t3 .t2 4)).map Rendering.text
    = some "000000 00000 01010 01011 00100 000000".toList := by decide
/-- B8: the printed groups of `syscall`. -/
theorem test_render_B8 : (rendering nums .syscall).map Rendering.text
    = some "000000 00000000000000000000 001100".toList := by decide
/-- B14, B15, B16 and an unknown mnemonic. -/
theorem test_render_errors :
    render nums (line "la $t0, msg") = .noEncoding ∧
    render nums (line "sw 77, 0($sp)") = .translationError ∧
    render nums (line "slti $v0, $t3, 2000000") = .translationError ∧
    render nums (line "beq $t0, $t1, done") = .translationError := by decide

/-! ### Tokens (rules R71 to R74, R84) -/

theorem test_tokens_registers :
    decode (line "add $v0, $a0, $t3") = .instr (.add .v0 .a0 .t3) ∧
    decode (line "sub $HI, $LO, $sp") = .instr (.sub .hi .lo .sp) ∧
    decode (line "and $t0, $t1, $t2") = .instr (.and .t0 .t1 .t2) ∧
    decode (line "or $zero, $t1, $t2") = .instr (.or .zero .t1 .t2) ∧
    decode (line "slt $t0, $t1, $t2") = .instr (.slt .t0 .t1 .t2) ∧
    decode (line "mult $HI, $LO") = .instr (.mult .hi .lo) := by decide
theorem test_tokens_immediates :
    decode (line "sll $t3, $t2, 4") = .instr (.sll .t3 .t2 4) ∧
    decode (line "addi $t1, $t0, +5") = .instr (.addi .t1 .t0 5) ∧
    decode (line "slti $t1, $t0, -4") = .instr (.slti .t1 .t0 (-4)) ∧
    decode (line "lui $t1, 65536") = .instr (.lui .t1 65536) ∧
    decode (line "lw $t1, 4($sp)") = .instr (.lw .t1 4 .sp) ∧
    decode (line "sw $t0, -1($sp)") = .instr (.sw (.reg .t0) (-1) .sp) ∧
    decode (line "sw -7, 3($t0)") = .instr (.sw (.lit (-7)) 3 .t0) ∧
    decode (line "syscall") = .instr .syscall := by decide
/-- E10. -/
theorem test_tokens_E10 : line "lw $t1, 4($sp)" =
    ⟨"lw".toList, ["$t1".toList, "4".toList, "$sp".toList]⟩ := by decide
/-- Rule R74: what is no literal. -/
theorem test_tokens_no_literal :
    intToken [] = none ∧ intToken "-".toList = none ∧ intToken "+-1".toList = none ∧
    intToken "0x10".toList = none ∧ intToken "1 ".toList = none ∧ intToken "-0".toList = some 0 := by decide
/-- A19, A20, M10, S7, I4, I15, L8, L14, Y11: malformed operands fault. -/
theorem test_malformed :
    stepTo "add $t0, $t1" [] [] (faults .malformedOperand) = true ∧
    stepTo "add $t0, $t1, $T2" [] [] (faults .malformedOperand) = true ∧
    stepTo "mult $t0" [] [] (faults .malformedOperand) = true ∧
    stepTo "sll $t1, $t0, $t0" [(.t0, 8)] [] (faults .malformedOperand) = true ∧
    stepTo "addi $t1, $t0, 0x10" [(.t0, 1)] [] (faults .malformedOperand) = true ∧
    stepTo "lui $t1" [] [] (faults .malformedOperand) = true ∧
    stepTo "lw $t1, $t0" [] [] (faults .malformedOperand) = true ∧
    stepTo "sw $t9, 0($t0)" [(.t0, 10)] [] (faults .malformedOperand) = true ∧
    stepTo "syscall 1" [(.v0, 10)] [] (faults .malformedOperand) = true := by decide
/-- A21, Y12, Y13, Y14: unrecognised mnemonics fault. -/
theorem test_unknown :
    stepTo "ADD $t0, $t1, $t2" [] [] (faults .unknownInstruction) = true ∧
    stepTo "nop" [] [] (faults .unknownInstruction) = true ∧
    stepTo "la $t0, msg" [] [] (faults .unknownInstruction) = true ∧
    stepTo "beq $t0, $t1, done" [] [] (faults .unknownInstruction) = true := by decide

/-! ### One step of each instruction -/

theorem test_add_A2 : stepTo "add $t2, $t0, $t1" [(.t0, 2147483647), (.t1, 1)] [] (gives .t2 2147483648) = true := by
  decide
theorem test_add_A22 : stepTo "add $t0, $HI, $LO" [(.hi, 1), (.lo, 605032704)] [] (gives .t0 605032705) = true := by
  decide
theorem test_sub_A5 : stepTo "sub $t3, $t1, $t0" [(.t0, 7), (.t1, 5)] [] (gives .t3 (-2)) = true := by decide
theorem test_sub_A6 :
    stepTo "sub $t2, $t0, $t1" [(.t0, -2147483648), (.t1, 1)] [] (gives .t2 (-2147483649)) = true := by decide
theorem test_and_A10 : stepTo "and $t2, $t0, $t1" [(.t0, -4), (.t1, -6)] [] (gives .t2 (-8)) = true := by decide
theorem test_and_A11 : stepTo "and $t2, $t0, $t1" [(.t0, -256), (.t1, 4660)] [] (gives .t2 4608) = true := by decide
theorem test_or_A12 : stepTo "or $t2, $t0, $t1" [(.t0, 12), (.t1, 10)] [] (gives .t2 14) = true := by decide
theorem test_or_A14 : stepTo "or $t2, $t0, $t1" [(.t0, -8), (.t1, 5)] [] (gives .t2 (-3)) = true := by decide
theorem test_slt_A16 : stepTo "slt $t2, $t0, $t1" [(.t0, -1)] [] (gives .t2 1) = true := by decide
theorem test_slt_A18 : stepTo "slt $t2, $t0, $t1" [(.t0, 4294967295), (.t2, 9)] [] (gives .t2 0) = true := by decide
theorem test_mult_M3 : stepTo "mult $t0, $t1" [(.t0, -3), (.t1, 5)] []
    (fun t => gives .hi (-1) t && gives .lo 4294967281 t) = true := by decide
theorem test_mult_M9 : stepTo "mult $HI, $LO" [(.hi, 6), (.lo, 7)] []
    (fun t => gives .hi 0 t && gives .lo 42 t) = true := by decide
theorem test_sll_S4 : stepTo "sll $t1, $t0, 32" [(.t0, 1)] [] (gives .t1 4294967296) = true := by decide
theorem test_sll_S6 : stepTo "sll $t1, $t0, -1" [(.t0, 8)] []
    (fun t => faults .malformedOperand t && decide (t.reg .t1 = 0)) = true := by decide
theorem test_addi_I3 : stepTo "addi $t1, $t0, 100000" [(.t0, 1)] [] (gives .t1 100001) = true := by decide
theorem test_addi_I5 : stepTo "addi $zero, $t0, 5" [(.t0, 1)] [] (gives .zero 0) = true := by decide
theorem test_slti_I8 : stepTo "slti $t1, $t0, -4" [(.t0, -5)] [] (gives .t1 1) = true := by decide
theorem test_slti_I9 : stepTo "slti $t1, $t0, 7" [(.t0, 7), (.t1, 9)] [] (gives .t1 0) = true := by decide
theorem test_lui_I11 : stepTo "lui $t1, 32768" [(.t1, 99)] [] (gives .t1 2147483648) = true := by decide
theorem test_lui_I13 : stepTo "lui $t1, -1" [] [] (gives .t1 (-65536)) = true := by decide
theorem test_lw_L7 : stepTo "lw $t0, 0($t0)" [(.t0, 7)] [(7, -12)] (gives .t0 (-12)) = true := by decide
theorem test_lw_L6 : stepTo "lw $zero, 1($sp)" [] [] (faults .memoryFault) = true := by decide
theorem test_sw_L13 : stepTo "sw -7, 3($t0)" [(.t0, 10)] [] (fun t => decide (t.mem = [(13, -7)])) = true := by decide
theorem test_sw_L15 : stepTo "sw $zero, 0($sp)" [] [(255, 8)] (fun t => decide (t.mem = [])) = true := by decide
theorem test_syscall_Y7 : stepTo "syscall" [(.v0, 4), (.a0, 5)] [(5, -3), (6, 1114112)]
    (fun t => decide (t.log = [.outStr [-3, 1114112]]) && decide (t.pc = 1)) = true := by decide
theorem test_syscall_Y8 : stepTo "syscall" [(.v0, 10)] []
    (fun t => decide (t.status = .halted) && decide (t.pc = 1) && decide (t.log = [])) = true := by decide

/-! ### The loader -/

/-- Program P3's data segment (E5) and its first text line, with `la` of the second label (E6). -/
def p3 : List Char :=
  (".data" ++ "\n" ++ "msg:  .asciiz " ++ "\"hi\"" ++ "\n" ++ "nums: .word 3, -4 # two" ++ "\n" ++ ".text" ++ "\n"
    ++ "main: la $t0, nums" ++ "\n" ++ "lw $t1, 1($t0)").toList

theorem test_load_P3 :
    (match assemble p3 with
     | .ok i => decide (i.mem = [(0, 104), (1, 105), (3, 3), (4, -4)]) && decide (i.dataPtr = 5) &&
        decide (i.symtab = [("msg".toList, 0), ("nums".toList, 3)]) &&
        decide (i.prog = [line "addi $t0 $zero 3", line "lw $t1 1 $t0"])
     | .error _ => false) = true := by decide +kernel
/-- Rule R97: the two errors of a text. -/
theorem test_load_errors :
    assemble (".data" ++ "\n" ++ "x: .byte 3").toList = .error .malformedDataLine ∧
    assemble (".text" ++ "\n" ++ "la $t0, nowhere").toList = .error .unknownLabel := by decide +kernel
/-- The host's placement of a word is run by the next step. -/
theorem test_fetch_word :
    step (State.reset.withFetchWord 32 0x20080007) =
      .next ((State.reset.withFetchWord 32 0x20080007).setReg .t0 7).complete := rfl

/-! ### Witnesses: concrete states and operands that meet the hypotheses of each statement -/

/-- The state the step witnesses start from. -/
def w0 : State := start "add $t2, $t0, $t1" [(.t0, 7), (.t1, 5)] [(0, 9), (255, -3)]
/-- Its successor. -/
def w1 : State := (w0.setReg .t2 12).complete
/-- A state about to halt, and the halted state. -/
def wHalt : State := start "syscall" [(.v0, 10)] []
/-- A state about to fault. -/
def wFault : State := start "nop" [] []

theorem test_w0_inv : w0.Inv := ⟨by decide, by decide, by decide⟩
theorem test_w0_step : step w0 = .next w1 := rfl
theorem test_wHalt_step : step wHalt = .next wHalt.halt := rfl
theorem test_wFault_step : step wFault = .next (wFault.takeFault .unknownInstruction) := rfl

/-- StepKeepsInvariant. -/
theorem witness_StepKeepsInvariant : w0.Inv ∧ step w0 = .next w1 := ⟨test_w0_inv, test_w0_step⟩
/-- EveryReachableStateHasInvariant. -/
theorem witness_EveryReachableStateHasInvariant : w0.Inv ∧ Reachable (hostCall .run (hostCall (.load (some p3)) State.reset)) :=
  ⟨test_w0_inv, .call _ (.call _ .start)⟩
/-- RunStatesSatisfyRule39: no step after a reset; one step after a load. -/
theorem witness_RunStatesSatisfyRule39 :
    Steps 0 w0.hostReset w0.hostReset ∧
    ∃ t, Steps 1 (State.reset.hostLoad (some ".text\nnop".toList)).1 t ∧ t.status = .faulted .unknownInstruction :=
  ⟨.refl _, _, .tail (.refl _) rfl, by decide +kernel⟩
/-- StepKeepsRule39: a step that goes on, and one that faults. -/
theorem witness_StepKeepsRule39 : w0.Inv ∧ w0.FaultsLoggedOnce [] ∧ step w0 = .next w1 ∧
    wFault.Inv ∧ wFault.FaultsLoggedOnce [] ∧
    step wFault = .next (wFault.takeFault .unknownInstruction) :=
  ⟨test_w0_inv, ⟨[], rfl, rfl⟩, test_w0_step, ⟨by decide, by decide, by decide⟩, ⟨[], rfl, rfl⟩,
    test_wFault_step⟩
/-- CanonicalMemoriesReadingAlikeAreEqual: the lowest and the highest cell. -/
theorem witness_CanonicalMemories : Memory.wf [(0, 9), (255, -3)] ∧
    ∀ a : Int, memRead [(0, 9), (255, -3)] a = memRead w0.mem a := ⟨by decide, fun _ => rfl⟩
/-- StepRunsTheDecodedInstruction. -/
theorem witness_StepRunsTheDecodedInstruction : w0.status = .running ∧
    w0.prog[w0.pc]? = some (line "add $t2, $t0, $t1") ∧
    decode (line "add $t2, $t0, $t1") = .instr (.add .t2 .t0 .t1) := by decide
/-- UnrecognisedMnemonicFaults. -/
theorem witness_UnrecognisedMnemonicFaults : wFault.status = .running ∧
    wFault.prog[wFault.pc]? = some (line "nop") ∧
    (line "nop").mnemonic ∉ (["add", "sub", "and", "or", "slt", "mult", "sll", "addi", "slti", "lui", "lw", "sw",
      "syscall"].map String.toList) := by decide
/-- RecognisedMnemonicWithBadOperandsFaults. -/
theorem witness_RecognisedMnemonicWithBadOperandsFaults :
    (start "add $t0, $t1" [] []).prog[0]? = some (line "add $t0, $t1") ∧
    (line "add $t0, $t1").mnemonic ∈ (["add", "sub", "and", "or", "slt", "mult", "sll", "addi", "slti", "lui", "lw",
      "sw", "syscall"].map String.toList) ∧ ∀ i, decode (line "add $t0, $t1") ≠ .instr i :=
  ⟨by decide, by decide, fun i h => by
    rw [show decode (line "add $t0, $t1") = .malformed (line "add $t0, $t1").mnemonic (line "add $t0, $t1").operands
      from by decide] at h
    cases h⟩
/-- EveryInstructionAnswersANextState, second clause. -/
theorem witness_Enabled : w0.Enabled := ⟨by decide, by decide⟩
/-- StepEndsNormallyHaltsOrFaults, ProgramCounterChangesOnlyAsStated: each of the three outcomes. -/
theorem witness_step_outcomes :
    (step w0 = .next w1 ∧ w1.status = .running) ∧
    (step wHalt = .next wHalt.halt ∧ wHalt.halt.status = .halted) ∧
    (step wFault = .next (wFault.takeFault .unknownInstruction) ∧
      (wFault.takeFault .unknownInstruction).status = .faulted .unknownInstruction) :=
  ⟨⟨test_w0_step, by decide⟩, ⟨test_wHalt_step, rfl⟩, test_wFault_step, rfl⟩
/-- NoProgramCounterValueIsExecutedTwice, InstructionsExecuteInOrder, SingleStepsThenRunEndAlike: a step that
leaves the run going; and the end of a program. -/
theorem witness_Steps : Steps 1 w0 w1 ∧ w1.status = .running ∧ w0.pc ≤ w0.prog.length ∧ w1.prog.length ≤ w1.pc :=
  ⟨.tail (.refl _) test_w0_step, by decide, by decide, by decide⟩
/-- StepWritesAtMostOneRegisterCellAndEvent: one destination and no cell; `mult`; a cell and no register. -/
theorem witness_StepWrites :
    (w0.prog[w0.pc]? = some (line "add $t2, $t0, $t1") ∧ step w0 = .next w1) ∧
    (∀ src offset base, decode (line "add $t2, $t0, $t1") ≠ .instr (.sw src offset base)) ∧
    destinations (decode (line "mult $t0, $t1")) = [.hi, .lo] ∧
    decode (line "sw $t0, 0($sp)") = .instr (.sw (.reg .t0) 0 .sp) ∧
    step (start "sw $t0, 0($sp)" [(.t0, 5)] []) =
      .next ({ start "sw $t0, 0($sp)" [(.t0, 5)] [] with mem := [(255, 5)] } : State).complete ∧
    stepTo "mult $t0, $t1" [(.t0, 3), (.t1, 4)] [] (gives .lo 12) = true :=
  ⟨⟨by decide, test_w0_step⟩, fun src offset base => by
    rw [show decode (line "add $t2, $t0, $t1") = .instr (.add .t2 .t0 .t1) from by decide]; simp,
    by decide, by decide, rfl, by decide⟩
/-- TerminalExactlyWhenNoSuccessor, StoppedStatusLeftOnlyByResetOrLoad: the three terminal states. -/
theorem witness_Terminal : (stopped .halted).Terminal ∧ (stopped (.faulted .memoryFault)).Terminal ∧
    State.reset.Terminal :=
  ⟨.inl rfl, .inr (.inl ⟨_, rfl⟩), .inr (.inr ⟨rfl, by decide⟩)⟩
/-- WordOfAnInstructionDecodesBack: numbers that collide with none, fields at both ends of their ranges. -/
theorem witness_WordOfAnInstruction : nums.wf = true ∧ (Instr.addi .hi .lo (-32768)).wf = true ∧
    (Instr.lw .t0 32767 .sp).wf = true ∧ (Instr.sll .t0 .t0 0).wf = true ∧ (Instr.sll .t0 .t0 31).wf = true ∧
    (Instr.sw (.reg .hi) 0 .lo).wf = true := by decide
/-- DecodedWordIsTheRendering, DecodedWordMatchesItsTableRow, for the open number 17. -/
theorem witness_DecodedWord : decodeWord nums 0x02205820 = some (.add .t3 .lo .zero) := by decide
/-- OpcodePatternsAreDisjoint. -/
theorem witness_OpcodePatterns :
    (Instr.add .t0 .t0 .t0).tokens.mnemonic ≠ (Instr.sub .t0 .t0 .t0).tokens.mnemonic := by decide
/-- EncoderAnswersAsStated: immediates and shift amounts at both sides of each bound, an instruction with and
one without a rendering, an unknown mnemonic, malformed operands. -/
theorem witness_EncoderAnswers :
    decode (line "syscall") = .instr .syscall ∧ rendering nums .syscall = some (.syscallType 0 12) ∧
    decode (line "sw 77, 0($sp)") = .instr (.sw (.lit 77) 0 .sp) ∧ rendering nums (.sw (.lit 77) 0 .sp) = none ∧
    decode (line "nop") = .unknown "nop".toList ∧ (line "nop").mnemonic ≠ "la".toList ∧
    decode (line "mult $t0") = .malformed "mult".toList ["$t0".toList] ∧
    rendering nums (.lw .t0 (-32768) .t1) ≠ none ∧ rendering nums (.slti .t0 .t1 (-32769)) = none ∧
    rendering nums (.lui .t0 65535) ≠ none ∧ rendering nums (.sw (.reg .t0) 65536 .t1) = none ∧
    rendering nums (.addi .t0 .t0 (-32768)) ≠ none ∧ rendering nums (.addi .t0 .t0 (-32769)) = none ∧
    rendering nums (.addi .t0 .t0 65535) ≠ none ∧ rendering nums (.addi .t0 .t0 65536) = none ∧
    rendering nums (.sll .t0 .t0 0) ≠ none ∧ rendering nums (.sll .t0 .t0 (-1)) = none ∧
    rendering nums (.sll .t0 .t0 31) ≠ none ∧ rendering nums (.sll .t0 .t0 32) = none := by decide
/-- SllWritesTheExactShift at 0, SllByNegativeAmountFaults at -1. -/
theorem witness_Sll : (0 : Int) ≤ 0 ∧ (-1 : Int) < 0 := by decide
/-- LwLoadsTheCell, SwStoresTheValue, StoreThenLoadReturnsTheValue, WritesToZeroAreDropped: addresses 0 and 255,
the base holding 255. -/
theorem witness_in_bounds : Memory.wf w0.mem ∧ Reg.t1 ≠ .zero ∧
    0 ≤ effectiveAddress w0 (-255) .sp ∧ effectiveAddress w0 (-255) .sp < 256 ∧
    effectiveAddress w0 (-255) .sp = 0 ∧ effectiveAddress w0 0 .sp = 255 ∧
    0 ≤ 0 + w0.reg .sp ∧ 0 + w0.reg .sp < 256 := by decide
/-- AccessOutOfBoundsFaults: addresses -1 and 256. -/
theorem witness_out_of_bounds : -1 + w0.reg .zero < 0 ∧ 256 ≤ 1 + w0.reg .sp := by decide
/-- SyscallPrintsTheInteger, SyscallHalts (`wHalt`), UnknownSelectorFaults. -/
theorem witness_selectors : (start "syscall" [(.v0, 1)] []).reg .v0 = 1 ∧ wHalt.reg .v0 = 10 ∧
    (start "syscall" [] []).reg .v0 ≠ 1 ∧ (start "syscall" [] []).reg .v0 ≠ 4 ∧ (start "syscall" [] []).reg .v0 ≠ 10 := by
  decide
/-- SyscallPrintsTheString: "hi" at 0; and the empty string at 255. -/
theorem witness_SyscallPrintsTheString :
    (let s := start "syscall" [(.v0, 4)] [(0, 104), (1, 105)]
     s.reg .v0 = 4 ∧ (∀ (k : Nat) (h : k < [104, 105].length),
        memRead s.mem (s.reg .a0 + k) = .ok ([104, 105] : List Int)[k] ∧ ([104, 105] : List Int)[k] ≠ 0) ∧
      memRead s.mem (s.reg .a0 + 2) = .ok 0) ∧
    memRead (start "syscall" [(.v0, 4), (.a0, 255)] []).mem 255 = .ok 0 := by decide
/-- StringScanLeavingMemoryFaults: a start below the memory; and no zero cell from 255 up. -/
theorem witness_StringScanLeavingMemory :
    (start "syscall" [(.v0, 4), (.a0, -1)] []).reg .v0 = 4 ∧
    ¬ 0 ≤ (start "syscall" [(.v0, 4), (.a0, -1)] []).reg .a0 ∧
    ∀ a : Int, 0 ≤ (start "syscall" [(.v0, 4), (.a0, 255)] [(255, 66)]).reg .a0 →
      (start "syscall" [(.v0, 4), (.a0, 255)] [(255, 66)]).reg .a0 ≤ a →
      memRead (start "syscall" [(.v0, 4), (.a0, 255)] [(255, 66)]).mem a ≠ .ok 0 := by
  refine ⟨by decide, by decide, fun a _ h => ?_⟩
  have h' : 255 ≤ a := h
  rcases eq_or_lt_of_le h' with rfl | hlt
  · decide
  · rw [memRead_error (.inr (by omega))]; simp
/-- OnlyStoresChangeMemory, OnlySyscallPrintsOrHalts: an instruction that is neither; one that faults. -/
theorem witness_only : exec (.add .t2 .t0 .t1) w0 = .next w1 ∧ Instr.add .t2 .t0 .t1 ≠ .syscall ∧
    (∀ src offset base, Instr.add .t2 .t0 .t1 ≠ .sw src offset base) ∧
    exec (.lw .t0 1 .sp) w0 = .next (w0.takeFault .memoryFault) :=
  ⟨rfl, by decide, fun _ _ _ => by simp, rfl⟩
/-- LaBecomesAddi: a label with one entry between others, a label with an address, a label absent. -/
theorem witness_La : (∀ d ∈ [("a".toList, 0)], d.1 ≠ "msg".toList) ∧ (∀ d ∈ [("b".toList, 9)], d.1 ≠ "msg".toList) ∧
    labelAddress [("msg".toList, 5)] "msg".toList = .ok 5 ∧
    ∀ d ∈ [("msg".toList, 5)], d.1 ≠ "nums".toList := by decide
/-- AssembledImageIsSound, LoadGivesTheLaunchState. -/
theorem witness_assemble : ∃ img, assemble p3 = .ok img ∧ img.dataPtr = 5 := ⟨_, rfl, by decide +kernel⟩
/-- DataLineFillsConsecutiveCells: the last three cells; a fourth value would fail. -/
theorem witness_writeCells : Memory.wf [] ∧ writeCells [] 253 [1, 0, 3] = .ok [(253, 1), (255, 3)] ∧
    writeCells [] 253 [1, 0, 3, 4] = .error .malformedDataLine := by decide
/-- FailedLoadLeavesThePostResetState: a source that cannot be read, and one that does not assemble. -/
theorem witness_FailedLoad : (State.reset.hostLoad none).2 = some .fileNotFound ∧
    assemble ".data\nx".toList = .error .malformedDataLine := by decide +kernel

end Sys2Proof.Tests
end

section
/-! PROOFS. The bits of an integer determine it (00_scope.md rule R8). -/

namespace Sys2Proof.Machine

/-- Far enough up only the sign is left: bit `m + n` lies above every set bit of both naturals. -/
theorem bitOf_ofNat_ne_bitOf_negSucc (m n : Nat) : bitOf (.ofNat m) (m + n) ≠ bitOf (.negSucc n) (m + n) := by
  have hm : m < 2 ^ (m + n) := (Nat.le_add_right m n).trans_lt Nat.lt_two_pow_self
  have hn : n < 2 ^ (m + n) := (Nat.le_add_left n m).trans_lt Nat.lt_two_pow_self
  rw [bitOf_ofNat, bitOf_negSucc, Nat.testBit_lt_two_pow hm, Nat.testBit_lt_two_pow hn]
  decide

/-- Nonnegative integers with the same bits are equal, since naturals are. -/
theorem eq_of_bitOf_ofNat_eq {m n : Nat} (h : ∀ i, bitOf (.ofNat m) i = bitOf (.ofNat n) i) : m = n := by
  refine Nat.eq_of_testBit_eq fun i => ?_
  have hi := h i
  rw [bitOf_ofNat, bitOf_ofNat] at hi
  revert hi
  cases m.testBit i <;> cases n.testBit i <;> decide

/-- The bits of `k` and of `-(k+1)` are complements (decision D2). -/
theorem bitOf_ofNat_eq_one_sub (k i : Nat) : bitOf (.ofNat k) i = 1 - bitOf (.negSucc k) i := by
  rw [bitOf_ofNat, bitOf_negSucc]
  split <;> rfl

/-- Negative integers with the same bits are equal, since the complemented bits are those of naturals. -/
theorem eq_of_bitOf_negSucc_eq {m n : Nat} (h : ∀ i, bitOf (.negSucc m) i = bitOf (.negSucc n) i) : m = n := by
  refine eq_of_bitOf_ofNat_eq fun i => ?_
  rw [bitOf_ofNat_eq_one_sub, bitOf_ofNat_eq_one_sub, h i]

/-- Settles O31: of one sign the naturals behind the two integers have the same bits; of different signs some
bit differs. -/
theorem bitsDetermineTheInteger : Obligations.BitsDetermineTheInteger := by
  intro u v h
  cases u with
  | ofNat m =>
    cases v with
    | ofNat n => rw [eq_of_bitOf_ofNat_eq h]
    | negSucc n => exact absurd (h _) (bitOf_ofNat_ne_bitOf_negSucc m n)
  | negSucc m =>
    cases v with
    | ofNat n => exact absurd (h _).symm (bitOf_ofNat_ne_bitOf_negSucc n m)
    | negSucc n => rw [eq_of_bitOf_negSucc_eq h]

end Sys2Proof.Machine
end

section
/-! PROOFS. The state (10_state.md): what a step does to `pc`, the status, the log and the canonical form of
the memory, said once; the invariants of rule R39 along steps and runs; the canonical memory; and the log
and the status under the host's calls. -/

namespace Sys2Proof.Machine

/-! ### The three outcomes of a step -/

/-- Normal completion (44_step_and_dispatch.md rule R174) as the invariants see it: `pc + 1`, the same status,
no `Fault` among the events logged, and a memory still in canonical form. -/
structure Completes (s t : State) : Prop where
  pc : t.pc = s.pc + 1
  status : t.status = s.status
  log : ∃ events, t.log = s.log ++ events ∧ faultCount events = 0
  mem_wf : Memory.wf s.mem → Memory.wf t.mem

/-- An effect that leaves `pc`, the status and the log alone, and then `pc + 1`. -/
theorem completes_of_quiet {s u : State} (hpc : u.pc = s.pc) (hstatus : u.status = s.status)
    (hlog : u.log = s.log) (hmem : Memory.wf s.mem → Memory.wf u.mem) : Completes s u.complete where
  pc := by simp [hpc]
  status := hstatus
  log := ⟨[], by simp [hlog], rfl⟩
  mem_wf := hmem

theorem faultCount_append (xs ys : List Event) : faultCount (xs ++ ys) = faultCount xs + faultCount ys :=
  List.countP_append

theorem faultCount_output {e : Event} (h : ∀ reason, e ≠ .fault reason) : faultCount [e] = 0 := by
  cases e with
  | outInt v => rfl
  | outStr codes => rfl
  | fault reason => exact absurd rfl (h reason)

theorem exec_outcome {i : Instr} {s t : State} (h : exec i s = .next t) :
    Completes s t ∨ t = s.halt ∨ ∃ reason, t = s.takeFault reason := by
  rcases exec_cases h with ⟨r, v, -, rfl⟩ | ⟨a, b, v, w, -, rfl⟩ | ⟨src, offset, base, m, -, hm, rfl⟩ |
    ⟨-, e, he, rfl⟩ | ⟨-, -, hhalt⟩ | hfault
  · exact .inl (completes_of_quiet (by simp) (by simp) (by simp) (by simp))
  · exact .inl (completes_of_quiet (by simp) (by simp) (by simp) (by simp))
  · exact .inl (completes_of_quiet rfl rfl rfl fun hs => memWrite_wf hs hm)
  · exact .inl ⟨rfl, rfl, ⟨[e], rfl, faultCount_output he⟩, id⟩
  · exact .inr (.inl hhalt)
  · exact .inr (.inr hfault)

theorem step_outcome {s t : State} (h : step s = .next t) :
    Completes s t ∨ t = s.halt ∨ ∃ reason, t = s.takeFault reason := by
  obtain ⟨-, ins, -, hk⟩ := step_cases h
  rcases execKind_cases hk with ⟨i, -, hi⟩ | ⟨-, hfault⟩
  · exact exec_outcome hi
  · exact .inr (.inr hfault)

/-! ### Every step keeps rule R39 -/

/-- (b): an enabled step has `pc` below the end, so `pc + 1` is at most the end; halt and fault go there. -/
theorem step_pc_le {s t : State} (h : step s = .next t) : t.pc ≤ t.prog.length := by
  obtain ⟨-, hlt⟩ := step_enabled h
  obtain ⟨hprog, -, -⟩ := step_sameProgram h
  rcases step_outcome h with hc | rfl | ⟨reason, rfl⟩
  · rw [hc.pc, hprog]
    exact hlt
  · exact le_rfl
  · exact le_rfl

/-- (c): a step that stops the run is no normal completion, so it went to the end. -/
theorem step_stopped_at_end {s t : State} (h : step s = .next t) (ht : t.status ≠ .running) :
    t.pc = t.prog.length := by
  obtain ⟨hrun, -⟩ := step_enabled h
  rcases step_outcome h with hc | rfl | ⟨reason, rfl⟩
  · exact absurd (hc.status.trans hrun) ht
  · rfl
  · rfl

theorem step_mem_wf {s t : State} (h : step s = .next t) (hs : Memory.wf s.mem) : Memory.wf t.mem := by
  rcases step_outcome h with hc | rfl | ⟨reason, rfl⟩
  · exact hc.mem_wf hs
  · exact hs
  · exact hs

theorem step_inv {s t : State} (hs : s.Inv) (h : step s = .next t) : t.Inv where
  pc_le := step_pc_le h
  stopped_at_end := step_stopped_at_end h
  mem_wf := step_mem_wf h hs.mem_wf

/-- (d): the addresses that can be read, whatever the memory holds. -/
theorem memRead_isOk_iff (m : Memory) (a : Int) : (∃ v, memRead m a = .ok v) ↔ 0 ≤ a ∧ a < 256 := by
  constructor
  · rintro ⟨v, hv⟩
    obtain ⟨h0, h1, -⟩ := memRead_cases hv
    exact ⟨h0, h1⟩
  · rintro ⟨h0, h1⟩
    exact ⟨_, memRead_ok h0 h1⟩

/-- (f): the status before a step is RUNNING, so no `Fault` has been logged; only fault entry logs one. -/
theorem step_faultsLoggedOnce {base : List Event} {s t : State} (hs : s.FaultsLoggedOnce base)
    (h : step s = .next t) : t.FaultsLoggedOnce base := by
  obtain ⟨events, hlog, hcount⟩ := hs
  obtain ⟨hrun, -⟩ := step_enabled h
  have hnone : faultCount events = 0 := by rw [hcount, hrun]
  rcases step_outcome h with hc | rfl | ⟨reason, rfl⟩
  · obtain ⟨new, hnew, hnew0⟩ := hc.log
    refine ⟨events ++ new, by rw [hnew, hlog, List.append_assoc], ?_⟩
    rw [faultCount_append, hnone, hnew0, hc.status, hrun]
  · exact ⟨events, hlog, hnone⟩
  · refine ⟨events ++ [.fault reason], by simp [hlog], ?_⟩
    rw [faultCount_append, hnone]
    rfl

/-- Settles O4: the invariant is kept field by field, by the three outcomes of a step. -/
theorem stepKeepsInvariant : Obligations.StepKeepsInvariant := fun _ _ => step_inv

/-- Settles O7: the invariant and the fault count are kept by the step, the program by every step, and the
bounds of the memory hold of any memory. -/
theorem stepKeepsRule39 : Obligations.StepKeepsRule39 := by
  intro base prog s t hinv hprog hfaults h
  obtain ⟨hsame, -, -⟩ := step_sameProgram h
  exact ⟨rfl, step_inv hinv h, memRead_isOk_iff t.mem, hsame.trans hprog, step_faultsLoggedOnce hfaults h⟩

/-! ### Runs -/

/-- What every step keeps, every run keeps. -/
theorem steps_keep {P : State → Prop} (hstep : ∀ {s t}, P s → step s = .next t → P t) {n : Nat} {s t : State}
    (h : Steps n s t) (hs : P s) : P t := by
  induction h with
  | refl => exact hs
  | tail _ hlast ih => exact hstep (ih hs) hlast

/-! ### What reset and load leave -/

theorem hostReset_inv (s : State) : s.hostReset.Inv where
  pc_le := le_rfl
  stopped_at_end _ := rfl
  mem_wf := reset_mem_wf

/-- A loaded line switches the segment or leaves the image, or it is a data line or an instruction line. -/
theorem loadLine_cases {img img' : Image} {source : List Char} (h : loadLine img source = .ok img') :
    (∃ segment, img' = { img with segment := segment }) ∨
      (∃ line, loadDataLine img line = .ok img') ∨ ∃ line, loadTextLine img line = .ok img' := by
  simp only [loadLine] at h
  split at h
  · injection h with h
    exact .inl ⟨img.segment, h.symm⟩
  · split at h
    · injection h with h
      exact .inl ⟨_, h.symm⟩
    · split at h
      · injection h with h
        exact .inl ⟨_, h.symm⟩
      · split at h
        · injection h with h
          exact .inl ⟨img.segment, h.symm⟩
        · exact .inr (.inl ⟨_, h⟩)
        · exact .inr (.inr ⟨_, h⟩)

/-- What every line keeps, the load of a text keeps. -/
theorem loadLines_keep {P : Image → Prop}
    (hline : ∀ {img img' source}, P img → loadLine img source = .ok img' → P img') {lines : List (List Char)}
    {img img' : Image} (himg : P img) (h : loadLines img lines = .ok img') : P img' := by
  induction lines generalizing img with
  | nil =>
    injection h with h
    exact h ▸ himg
  | cons line lines ih =>
    simp only [loadLines] at h
    split at h
    · cases h
    · next hfirst => exact ih (hline himg hfirst) h

/-- The data image is a canonical memory filled up to a data pointer within the 256 cells (D19). -/
structure Image.DataWf (img : Image) : Prop where
  mem_wf : Memory.wf img.mem
  dataPtr_le : img.dataPtr ≤ 256

theorem loadLine_dataWf {img img' : Image} {source : List Char} (himg : img.DataWf)
    (h : loadLine img source = .ok img') : img'.DataWf := by
  rcases loadLine_cases h with ⟨segment, rfl⟩ | ⟨line, hdata⟩ | ⟨line, htext⟩
  · exact ⟨himg.mem_wf, himg.dataPtr_le⟩
  · obtain ⟨vs, -, hcells, hptr, -⟩ := loadDataLine_cases hdata
    obtain ⟨hwf, hle⟩ := writeCells_wf himg.mem_wf himg.dataPtr_le hcells
    exact ⟨hwf, hptr ▸ hle⟩
  · obtain ⟨hmem, hptr, -⟩ := loadTextLine_cases htext
    exact ⟨hmem ▸ himg.mem_wf, hptr ▸ himg.dataPtr_le⟩

theorem assemble_dataWf {text : List Char} {img : Image} (h : assemble text = .ok img) : img.DataWf :=
  loadLines_keep loadLine_dataWf ⟨reset_mem_wf, Nat.zero_le _⟩ h

theorem launch_inv (s : State) {img : Image} (h : Memory.wf img.mem) : (s.launch img).Inv where
  pc_le := Nat.zero_le _
  stopped_at_end hstopped := absurd rfl hstopped
  mem_wf := h

/-- A load leaves the post-reset state or the launch state of an assembled image (rules R228, R229). -/
theorem hostLoad_cases (s : State) (source : Option (List Char)) :
    (s.hostLoad source).1 = s.hostReset ∨
      ∃ text img, assemble text = .ok img ∧ (s.hostLoad source).1 = s.launch img := by
  cases source with
  | none => exact .inl rfl
  | some text =>
    simp only [State.hostLoad]
    split
    · next img himg => exact .inr ⟨text, img, himg, rfl⟩
    · exact .inl rfl

theorem hostLoad_inv (s : State) (source : Option (List Char)) : (s.hostLoad source).1.Inv := by
  rcases hostLoad_cases s source with h | ⟨text, img, himg, h⟩ <;> rw [h]
  · exact hostReset_inv s
  · exact launch_inv s (assemble_dataWf himg).mem_wf

@[simp] theorem hostLoad_pc (s : State) (source : Option (List Char)) : (s.hostLoad source).1.pc = 0 := by
  rcases hostLoad_cases s source with h | ⟨text, img, -, h⟩ <;> rw [h] <;> rfl

@[simp] theorem hostLoad_status (s : State) (source : Option (List Char)) :
    (s.hostLoad source).1.status = .running := by
  rcases hostLoad_cases s source with h | ⟨text, img, -, h⟩ <;> rw [h] <;> rfl

@[simp] theorem hostLoad_log (s : State) (source : Option (List Char)) : (s.hostLoad source).1.log = s.log := by
  rcases hostLoad_cases s source with h | ⟨text, img, -, h⟩ <;> rw [h] <;> rfl

theorem faultsLoggedOnce_of_running {s : State} (h : s.status = .running) : s.FaultsLoggedOnce s.log :=
  ⟨[], by simp, by rw [h]; rfl⟩

/-- Settles O6: what reset and load leave has the invariant and is RUNNING, and every run keeps the invariant,
the fault count and the program. -/
theorem runStatesSatisfyRule39 : Obligations.RunStatesSatisfyRule39 := by
  intro s l t n hl h
  obtain ⟨hinv, hrun⟩ : l.Inv ∧ l.status = .running := by
    rcases hl with rfl | ⟨source, rfl⟩
    · exact ⟨hostReset_inv s, rfl⟩
    · exact ⟨hostLoad_inv s source, hostLoad_status s source⟩
  have htinv : t.Inv := steps_keep step_inv h hinv
  obtain ⟨hprog, -, -⟩ := steps_sameProgram h
  refine ⟨rfl, htinv.pc_le, fun hstopped => htinv.stopped_at_end ?_, memRead_isOk_iff t.mem, hprog,
    steps_keep step_faultsLoggedOnce h (faultsLoggedOnce_of_running hrun)⟩
  rcases hstopped with hst | ⟨reason, hst⟩ <;> simp [hst]

/-! ### The canonical memory -/

/-- A listed cell is what its address reads as: the addresses rise, so none is listed twice. -/
theorem get_of_mem {m : Memory} (hm : m.Pairwise (fun c d => c.1 < d.1)) {c : Cell} (h : c ∈ m) :
    Memory.get m c.1 = c.2 := by
  induction m with
  | nil => cases h
  | cons d m ih =>
    obtain ⟨hd, hm⟩ := List.pairwise_cons.1 hm
    rcases List.mem_cons.1 h with rfl | h
    · simp [Memory.get]
    · have hne : c.1 ≠ d.1 := (hd c h).ne'
      simp [Memory.get, hne, ih hm h]

/-- An address that does not read as unlisted is listed. -/
theorem mem_of_get {m : Memory} {a : Nat} (h : Memory.get m a ≠ Config.unlistedCell) :
    (a, Memory.get m a) ∈ m := by
  induction m with
  | nil => exact absurd rfl h
  | cons d m ih =>
    obtain ⟨b, w⟩ := d
    simp only [Memory.get] at h ⊢
    split
    · next hab => simp [hab]
    · next hab => exact List.mem_cons_of_mem _ (ih (by simpa [hab] using h))

theorem get_eq_of_memRead_eq {m m' : Memory} (h : ∀ a : Int, memRead m a = memRead m' a) {a : Nat}
    (ha : a < Config.memSize) : Memory.get m a = Memory.get m' a := by
  have h0 : (0 : Int) ≤ a := Int.natCast_nonneg a
  have h1 : (a : Int) < 256 := Int.ofNat_lt.2 ha
  have hread := h a
  rw [memRead_ok h0 h1, memRead_ok h0 h1] at hread
  exact Except.ok.inj hread

/-- A listed cell lies within the memory and is not 0, so a memory that reads alike lists it too. -/
theorem subset_of_memRead_eq {m m' : Memory} (hm : Memory.wf m)
    (h : ∀ a : Int, memRead m a = memRead m' a) : m ⊆ m' := by
  intro c hc
  obtain ⟨hrising, hcells⟩ := hm
  obtain ⟨hlt, hne⟩ := hcells c hc
  have hget : Memory.get m' c.1 = c.2 := by rw [← get_eq_of_memRead_eq h hlt, get_of_mem hrising hc]
  have hmem : (c.1, Memory.get m' c.1) ∈ m' := mem_of_get (by rwa [hget])
  rwa [hget] at hmem

/-- Settles O8: each memory lists the cells of the other, and a strictly rising list is determined by its
members. -/
theorem canonicalMemoriesReadingAlikeAreEqual : Obligations.CanonicalMemoriesReadingAlikeAreEqual := by
  intro m m' hm hm' h
  have hirrefl : Std.Irrefl (fun c d : Cell => c.1 < d.1) := ⟨fun c => lt_irrefl c.1⟩
  have hantisymm : Std.Antisymm (fun c d : Cell => c.1 < d.1) := ⟨fun _ _ hcd hdc => absurd hdc hcd.asymm⟩
  exact List.Subset.antisymm_of_pairwise hm.1 hm'.1 (subset_of_memRead_eq hm h)
    (subset_of_memRead_eq hm' fun a => (h a).symm)

/-! ### The program counter -/

theorem step_pc_of_running {s t : State} (h : step s = .next t) (ht : t.status = .running) :
    t.pc = s.pc + 1 := by
  rcases step_outcome h with hc | rfl | ⟨reason, rfl⟩
  · exact hc.pc
  · cases ht
  · cases ht

/-- Settles O14: reset and load set `pc` to 0; a step goes on to `pc + 1` or stops at the end. -/
theorem programCounterChangesOnlyAsStated : Obligations.ProgramCounterChangesOnlyAsStated := by
  refine fun s => ⟨rfl, hostLoad_pc s, fun t h => ⟨step_pc_of_running h, fun ht => ?_, fun reason ht => ?_⟩⟩
  · exact step_stopped_at_end h (by simp [ht])
  · exact step_stopped_at_end h (by simp [ht])

/-- Halt and fault too move `pc` forward, since an enabled step has it below the end. -/
theorem step_pc_lt {s t : State} (h : step s = .next t) : s.pc < t.pc := by
  obtain ⟨-, hlt⟩ := step_enabled h
  rcases step_outcome h with hc | rfl | ⟨reason, rfl⟩
  · rw [hc.pc]
    exact Nat.lt_succ_self _
  · exact hlt
  · exact hlt

theorem steps_pc_add_le {n : Nat} {s t : State} (h : Steps n s t) : s.pc + n ≤ t.pc := by
  induction h with
  | refl => exact le_rfl
  | tail _ hlast ih => exact Nat.succ_le_of_lt (ih.trans_lt (step_pc_lt hlast))

theorem steps_pc_le {n : Nat} {s t : State} (h : Steps n s t) (hs : s.pc ≤ s.prog.length) :
    t.pc ≤ s.prog.length := by
  obtain ⟨hprog, -, -⟩ := steps_sameProgram h
  rw [← hprog]
  exact steps_keep (P := fun u => u.pc ≤ u.prog.length) (fun _ hstep => step_pc_le hstep) h hs

/-- Settles O15: every step moves `pc` forward and stays within the program, and a step needs an instruction
at `pc`. -/
theorem noProgramCounterValueIsExecutedTwice : Obligations.NoProgramCounterValueIsExecutedTwice := by
  refine ⟨fun _ _ _ => steps_pc_add_le, fun _ _ _ => steps_pc_le, fun s t hend h => ?_⟩
  obtain ⟨-, hlt⟩ := step_enabled h
  exact absurd hend hlt.not_ge

/-! ### Output and halt -/

/-- Settles O50: the outcomes that emit an output event or halt are those of `syscall` alone. -/
theorem onlySyscallPrintsOrHalts : Obligations.OnlySyscallPrintsOrHalts := by
  intro i s t h hi
  rcases exec_cases h with ⟨r, v, -, rfl⟩ | ⟨a, b, v, w, -, rfl⟩ | ⟨src, offset, base, m, -, -, rfl⟩ |
    ⟨hsys, -⟩ | ⟨hsys, -⟩ | ⟨reason, rfl⟩
  · exact .inl ⟨by simp, by simp⟩
  · exact .inl ⟨by simp, by simp⟩
  · exact .inl ⟨rfl, rfl⟩
  · exact absurd hsys hi
  · exact absurd hsys hi
  · exact .inr ⟨reason, rfl, rfl⟩

/-! ### The host's calls -/

/-- A step request is one step, or none in a terminal state. -/
theorem exists_steps_hostStep (s : State) : ∃ n, Steps n s s.hostStep := by
  simp only [State.hostStep]
  split
  · next t h => exact ⟨1, .tail (.refl s) h⟩
  · exact ⟨0, .refl s⟩
  · exact ⟨0, .refl s⟩

theorem exists_steps_stepsUpTo (n : Nat) (s : State) : ∃ k ≤ n, Steps k s (stepsUpTo n s) := by
  induction n generalizing s with
  | zero => exact ⟨0, le_rfl, .refl s⟩
  | succ n ih =>
    simp only [stepsUpTo]
    split
    · next t h =>
      obtain ⟨k, hk, hsteps⟩ := ih t
      exact ⟨k + 1, Nat.succ_le_succ hk, steps_head h hsteps⟩
    · exact ⟨0, Nat.zero_le _, .refl s⟩
    · exact ⟨0, Nat.zero_le _, .refl s⟩

theorem step_log_prefix {s t : State} (h : step s = .next t) : s.log <+: t.log := by
  rcases step_outcome h with hc | rfl | ⟨reason, rfl⟩
  · obtain ⟨events, hlog, -⟩ := hc.log
    exact ⟨events, hlog.symm⟩
  · exact List.prefix_rfl
  · exact ⟨[.fault reason], rfl⟩

theorem steps_log_prefix {n : Nat} {s t : State} (h : Steps n s t) : s.log <+: t.log :=
  steps_keep (P := fun u => s.log <+: u.log) (fun hu hstep => hu.trans (step_log_prefix hstep)) h
    List.prefix_rfl

theorem hostCall_log_prefix (c : HostCall) (s : State) : s.log <+: (hostCall c s).log := by
  cases c with
  | reset => exact List.prefix_rfl
  | load source => exact (hostLoad_log s source).symm ▸ List.prefix_rfl
  | step =>
    obtain ⟨n, h⟩ := exists_steps_hostStep s
    exact steps_log_prefix h
  | run =>
    obtain ⟨n, -, h⟩ := exists_steps_stepsUpTo (s.prog.length - s.pc) s
    exact steps_log_prefix h

/-- Settles O52: after every call the new log begins with the old one, and what is reported is the rest. -/
theorem hostCallsOnlyAppendToTheLog : Obligations.HostCallsOnlyAppendToTheLog :=
  fun c s => List.prefix_append_drop (hostCall_log_prefix c s)

theorem terminal_not_enabled {s : State} (h : s.Terminal) : ¬ s.Enabled := by
  rintro ⟨hrun, hlt⟩
  rcases h with hst | ⟨reason, hst⟩ | ⟨-, hend⟩
  · simp [hrun] at hst
  · simp [hrun] at hst
  · exact absurd hend hlt.not_ge

theorem terminal_no_successor {s : State} (h : s.Terminal) (t : State) : step s ≠ .next t :=
  fun hstep => terminal_not_enabled h (step_enabled hstep)

theorem stepsUpTo_terminal (n : Nat) {s : State} (h : s.Terminal) : stepsUpTo n s = s := by
  cases n with
  | zero => rfl
  | succ n =>
    simp only [stepsUpTo]
    split
    · next t hstep => exact absurd hstep (terminal_no_successor h t)
    · rfl
    · rfl

theorem hostStep_terminal {s : State} (h : s.Terminal) : s.hostStep = s := by
  simp only [State.hostStep]
  split
  · next t hstep => exact absurd hstep (terminal_no_successor h t)
  · rfl
  · rfl

/-- Settles O51: a terminal state has no successor, so step and run stay; reset and load leave RUNNING. -/
theorem stoppedStatusLeftOnlyByResetOrLoad : Obligations.StoppedStatusLeftOnlyByResetOrLoad :=
  fun s => ⟨fun h => ⟨hostStep_terminal h, stepsUpTo_terminal _ h⟩, rfl, hostLoad_status s⟩

/-! ### The reset values, and `$zero` -/

theorem reset_reg (r : Reg) : State.reset.reg r = if r = .sp then 255 else 0 := by
  cases r <;> rfl

/-- Settles O1: the table of reset values; the program is empty, so nothing is to fetch. -/
theorem resetLeavesStatedValues : Obligations.ResetLeavesStatedValues :=
  ⟨reset_reg, rfl, fun _ h0 h1 => memRead_ok h0 h1, rfl, rfl, rfl, rfl, rfl, .inr (.inr ⟨rfl, le_rfl⟩)⟩

/-- Settles O3: at reset `pc` is the end of the empty program and no cell is listed. -/
theorem invariantHoldsAtReset : Obligations.InvariantHoldsAtReset := hostReset_inv State.reset

/-- A write to `$zero` leaves the state, so only `pc` moves (rule R21). -/
theorem writeBack_zero (s : State) (v : Int) :
    ∃ t, writeBack s .zero v = .next t ∧ t.reg .zero = 0 ∧ SameRegsBut [] s t ∧ SameCells s t ∧
      SameProgram s t ∧ CompletesQuietly s t :=
  ⟨s.complete, rfl, rfl, fun r _ => complete_reg s r, sameCells_of_mem rfl, ⟨rfl, rfl, rfl⟩, rfl, rfl, rfl⟩

/-- `sll` by an amount from 0 up. -/
theorem exec_sll_ok {rd rt : Reg} {shamt : Int} {s : State} (h : 0 ≤ shamt) :
    exec (.sll rd rt shamt) s = writeBack s rd (shiftLeft (s.reg rt) shamt.toNat) := by
  have hk : shiftAmount shamt = .ok shamt.toNat := by simp [shiftAmount, h.not_gt]
  simp only [exec, execSll, hk]
  rfl

/-- Settles O39: each of these instructions is a write back to `$zero`, and that changes nothing but `pc`. -/
theorem writesToZeroAreDropped : Obligations.WritesToZeroAreDropped := by
  refine fun s => ⟨rfl, fun rs rt imm k i hi => ?_, fun offset base h0 h1 => ?_⟩
  · have hwrite : ∃ v, exec i s = writeBack s .zero v := by
      simp only [List.mem_cons, List.not_mem_nil, or_false] at hi
      rcases hi with rfl | rfl | rfl | rfl | rfl | rfl | rfl | rfl | rfl
      on_goal 6 => exact ⟨_, exec_sll_ok (Int.natCast_nonneg k)⟩ -- only `sll` checks its operand first
      all_goals exact ⟨_, rfl⟩
    obtain ⟨v, hv⟩ := hwrite
    exact hv ▸ writeBack_zero s v
  · exact exec_lw_ok (memRead_ok h0 h1) ▸ writeBack_zero s _

end Sys2Proof.Machine
end

section
/-! PROOFS. The data memory (20_memory.md): a load reads the last store back, which instructions leave every
cell, and accesses outside the 256 cells. -/

namespace Sys2Proof.Machine

/-- A stored value is what a load of the same operand then writes back, since a store leaves the base register
(rule R63). -/
theorem exec_lw_after_sw {src : StoreSource} {rd base : Reg} {offset : Int} {m : Memory} {s : State}
    (hwf : Memory.wf s.mem)
    (hm : memWrite s.mem (effectiveAddress s offset base) (storeValue s src) = .ok m) :
    exec (.lw rd offset base) ({ s with mem := m } : State).complete =
      writeBack ({ s with mem := m } : State).complete rd (storeValue s src) := by
  apply exec_lw_ok
  rw [complete_mem, complete_reg, reg_withMem, memRead_memWrite hwf hm]
  exact if_pos rfl

/-- Settles O43: the store writes the register's value at the address, and the load writes it back to `rd`. -/
theorem storeThenLoadReturnsTheValue : Obligations.StoreThenLoadReturnsTheValue := by
  intro rt rd base offset s hwf hrd h0 h1
  have hm := memWrite_ok (m := s.mem) (s.reg rt) h0 h1
  refine ⟨_, _, exec_sw_ok hm, exec_lw_after_sw (src := .reg rt) hwf hm, ?_⟩
  rw [complete_reg, reg_setReg_self _ _ hrd]
  rfl

/-- Settles O49: of the outcomes of an instruction, that of `sw` alone touches the memory. -/
theorem onlyStoresChangeMemory : Obligations.OnlyStoresChangeMemory := by
  intro i s t h hi
  apply sameCells_of_mem
  rcases exec_cases h with ⟨r, v, -, rfl⟩ | ⟨a, b, v, w, -, rfl⟩ | ⟨src, offset, base, m, hsw, -, -⟩ |
    ⟨-, e, -, rfl⟩ | ⟨-, -, rfl⟩ | ⟨reason, rfl⟩
  · simp
  · simp
  · exact absurd hsw (hi src offset base)
  · rfl
  · rfl
  · rfl

/-- Settles O41: outside the bounds the read and the write both raise, and fault entry keeps registers and
cells. -/
theorem accessOutOfBoundsFaults : Obligations.AccessOutOfBoundsFaults := by
  intro rt base src offset s h
  exact ⟨⟨_, exec_lw_error (memRead_error h), takeFault_spec s .memoryFault⟩,
    ⟨_, exec_sw_error (memWrite_error _ h), takeFault_spec s .memoryFault⟩⟩

end Sys2Proof.Machine
end

section
/-! PROOFS. The token form (30_encoding.md rules R70 to R74, R84): which operand lists each mnemonic accepts,
and that the tokens of an instruction decode back to it. -/

namespace Sys2Proof

/-! ### Operand shapes -/

/-- A shape of two operands, each with its own reader. -/
def twoOperands {α β : Type} (f : Token → Option α) (g : Token → Option β) (mk : α → β → Instr) :
    List Token → Option Instr
  | [a, b] => do
    let x ← f a
    let y ← g b
    pure (mk x y)
  | _ => none

/-- A shape of three operands, each with its own reader. -/
def threeOperands {α β γ : Type} (f : Token → Option α) (g : Token → Option β) (h : Token → Option γ)
    (mk : α → β → γ → Instr) : List Token → Option Instr
  | [a, b, c] => do
    let x ← f a
    let y ← g b
    let z ← h c
    pure (mk x y z)
  | _ => none

theorem operandsRR_eq (mk : Reg → Reg → Instr) : operandsRR mk = twoOperands regToken regToken mk := rfl
theorem operandsRI_eq (mk : Reg → Int → Instr) : operandsRI mk = twoOperands regToken intToken mk := rfl
theorem operandsRRR_eq (mk : Reg → Reg → Reg → Instr) :
    operandsRRR mk = threeOperands regToken regToken regToken mk := rfl
theorem operandsRRI_eq (mk : Reg → Reg → Int → Instr) :
    operandsRRI mk = threeOperands regToken regToken intToken mk := rfl
theorem operandsRIR_eq (mk : Reg → Int → Reg → Instr) :
    operandsRIR mk = threeOperands regToken intToken regToken mk := rfl
theorem operandsSIR_eq (mk : StoreSource → Int → Reg → Instr) :
    operandsSIR mk = threeOperands storeSourceToken intToken regToken mk := rfl

theorem twoOperands_eq_some {α β : Type} {f : Token → Option α} {g : Token → Option β}
    {mk : α → β → Instr}
    {ops : List Token} {i : Instr} : twoOperands f g mk ops = some i ↔
      ∃ a x b y, ops = [a, b] ∧ f a = some x ∧ g b = some y ∧ i = mk x y := by
  constructor
  · intro h
    unfold twoOperands at h
    split at h
    · simp only [bind, pure, Option.bind_eq_some_iff, Option.some.injEq] at h
      obtain ⟨x, hx, y, hy, rfl⟩ := h
      exact ⟨_, x, _, y, rfl, hx, hy, rfl⟩
    · cases h
  · rintro ⟨a, x, b, y, rfl, hx, hy, rfl⟩
    simp [twoOperands, hx, hy]

theorem threeOperands_eq_some {α β γ : Type} {f : Token → Option α} {g : Token → Option β}
    {h : Token → Option γ} {mk : α → β → γ → Instr} {ops : List Token} {i : Instr} :
    threeOperands f g h mk ops = some i ↔
      ∃ a x b y c z, ops = [a, b, c] ∧ f a = some x ∧ g b = some y ∧ h c = some z ∧ i = mk x y z := by
  constructor
  · intro hi
    unfold threeOperands at hi
    split at hi
    · simp only [bind, pure, Option.bind_eq_some_iff, Option.some.injEq] at hi
      obtain ⟨x, hx, y, hy, z, hz, rfl⟩ := hi
      exact ⟨_, x, _, y, _, z, rfl, hx, hy, hz, rfl⟩
    · cases hi
  · rintro ⟨a, x, b, y, c, z, rfl, hx, hy, hz, rfl⟩
    simp [threeOperands, hx, hy, hz]

theorem operandsNone_eq_some {i j : Instr} {ops : List Token} :
    operandsNone i ops = some j ↔ ops = [] ∧ j = i := by
  cases ops with
  | nil => simp [operandsNone, eq_comm]
  | cons t ts => simp [operandsNone]

/-- The first operand of `sw` reads as a register where it is a register's name, and else as a literal (R84). -/
theorem storeSourceToken_eq_some {t : Token} {src : StoreSource} : storeSourceToken t = some src ↔
    (∃ rt, t = Reg.name rt ∧ src = .reg rt) ∨
      ((∀ rt, t ≠ Reg.name rt) ∧ ∃ v, intToken t = some v ∧ src = .lit v) := by
  unfold storeSourceToken
  split
  · next r hr =>
    obtain rfl := regToken_eq_some.1 hr
    constructor
    · intro h
      exact .inl ⟨r, rfl, (Option.some.inj h).symm⟩
    · rintro (⟨rt, hrt, rfl⟩ | ⟨hno, -⟩)
      · rw [← Option.some.inj ((regToken_name r).symm.trans (regToken_eq_some.2 hrt))]
      · exact absurd rfl (hno r)
  · next hr =>
    have hno := regToken_eq_none.1 hr
    simp [hno, eq_comm]

/-- A mnemonic of the table decodes what its row accepts (rule R72). -/
theorem decode_eq_instr_of_lookup {m : Token} {f : List Token → Option Instr}
    (hm : mnemonicTable.lookup m = some f) (ops : List Token) (i : Instr) :
    decode ⟨m, ops⟩ = .instr i ↔ f ops = some i := by
  simp only [decode, hm]
  split <;> simp [*]

/-- Settles O19: each mnemonic's row of the table, and what its shape accepts. -/
theorem operandShapesDecideDecoding : Obligations.OperandShapesDecideDecoding := by
  intro ops i
  have hRRR (mk : Reg → Reg → Reg → Instr) : operandsRRR mk ops = some i ↔
      ∃ rd rs rt, ops = [Reg.name rd, Reg.name rs, Reg.name rt] ∧ i = mk rd rs rt := by
    simp [operandsRRR_eq, threeOperands_eq_some, regToken_eq_some]
  have hRRI (mk : Reg → Reg → Int → Instr) : operandsRRI mk ops = some i ↔
      ∃ x y tok n, ops = [Reg.name x, Reg.name y, tok] ∧ intToken tok = some n ∧ i = mk x y n := by
    simp [operandsRRI_eq, threeOperands_eq_some, regToken_eq_some]
  refine ⟨?_, ?_, ?_, ?_, ?_, ?_, ?_⟩
  · simp only [List.forall_mem_cons, List.not_mem_nil, false_imp_iff, implies_true, and_true, ← hRRR]
    exact ⟨decode_eq_instr_of_lookup rfl ops i, decode_eq_instr_of_lookup rfl ops i,
      decode_eq_instr_of_lookup rfl ops i, decode_eq_instr_of_lookup rfl ops i,
      decode_eq_instr_of_lookup rfl ops i⟩
  · rw [decode_eq_instr_of_lookup rfl, operandsRR_eq, twoOperands_eq_some]
    simp [regToken_eq_some]
  · simp only [List.forall_mem_cons, List.not_mem_nil, false_imp_iff, implies_true, and_true, ← hRRI]
    exact ⟨decode_eq_instr_of_lookup rfl ops i, decode_eq_instr_of_lookup rfl ops i,
      decode_eq_instr_of_lookup rfl ops i⟩
  · rw [decode_eq_instr_of_lookup rfl, operandsRI_eq, twoOperands_eq_some]
    simp [regToken_eq_some]
  · rw [decode_eq_instr_of_lookup rfl, operandsRIR_eq, threeOperands_eq_some]
    simp [regToken_eq_some]
  · rw [decode_eq_instr_of_lookup rfl, operandsSIR_eq, threeOperands_eq_some]
    simp [regToken_eq_some, storeSourceToken_eq_some, and_left_comm]
  · rw [decode_eq_instr_of_lookup rfl, operandsNone_eq_some]

/-! ### The token form -/

/-- No digit separates tokens. -/
theorem not_isSeparator_of_isDigit {c : Char} (h : 48 ≤ c.toNat ∧ c.toNat ≤ 57) : isSeparator c = false := by
  have hne {d : Char} (hd : d.toNat < 48) : c ≠ d := by
    rintro rfl
    omega
  simp [isSeparator, isSpace, hne (d := ' ') (by decide), hne (d := '\t') (by decide),
    hne (d := '\r') (by decide), hne (d := '\n') (by decide), hne (d := ',') (by decide),
    hne (d := '(') (by decide), hne (d := ')') (by decide)]

theorem token_wf_iff {t : Token} : t.wf = true ↔ t ≠ [] ∧ ∀ c ∈ t, isSeparator c = false := by
  simp [Token.wf]

theorem name_wf (r : Reg) : Token.wf r.name = true := by cases r <;> decide

theorem naturalNumeral_wf (n : Nat) : Token.wf (naturalNumeral n) = true :=
  token_wf_iff.2 ⟨naturalDigits_ne_nil n n,
    fun c hc => not_isSeparator_of_isDigit (naturalDigits_isDigit n n c hc)⟩

theorem intNumeral_wf (n : Int) : Token.wf (intNumeral n) = true := by
  cases n with
  | ofNat n => exact naturalNumeral_wf n
  | negSucc n =>
    obtain ⟨-, hdigits⟩ := token_wf_iff.1 (naturalNumeral_wf (n + 1))
    exact token_wf_iff.2 ⟨List.cons_ne_nil _ _, List.forall_mem_cons.2 ⟨by decide, hdigits⟩⟩

theorem storeSource_token_wf (src : StoreSource) : Token.wf src.token = true := by
  cases src with
  | reg r => exact name_wf r
  | lit v => exact intNumeral_wf v

theorem instruction_wf_of_two {m a b : Token} (hm : m.wf = true) (ha : a.wf = true) (hb : b.wf = true) :
    Instruction.wf ⟨m, [a, b]⟩ = true := by
  simp [Instruction.wf, hm, ha, hb]

theorem instruction_wf_of_three {m a b c : Token} (hm : m.wf = true) (ha : a.wf = true) (hb : b.wf = true)
    (hc : c.wf = true) : Instruction.wf ⟨m, [a, b, c]⟩ = true := by
  simp [Instruction.wf, hm, ha, hb, hc]

theorem tokens_wf (i : Instr) : i.tokens.wf = true := by
  cases i with
  | add rd rs rt => exact instruction_wf_of_three rfl (name_wf rd) (name_wf rs) (name_wf rt)
  | sub rd rs rt => exact instruction_wf_of_three rfl (name_wf rd) (name_wf rs) (name_wf rt)
  | and rd rs rt => exact instruction_wf_of_three rfl (name_wf rd) (name_wf rs) (name_wf rt)
  | or rd rs rt => exact instruction_wf_of_three rfl (name_wf rd) (name_wf rs) (name_wf rt)
  | slt rd rs rt => exact instruction_wf_of_three rfl (name_wf rd) (name_wf rs) (name_wf rt)
  | mult rs rt => exact instruction_wf_of_two rfl (name_wf rs) (name_wf rt)
  | sll rd rt n => exact instruction_wf_of_three rfl (name_wf rd) (name_wf rt) (intNumeral_wf n)
  | syscall => rfl
  | addi rt rs n => exact instruction_wf_of_three rfl (name_wf rt) (name_wf rs) (intNumeral_wf n)
  | slti rt rs n => exact instruction_wf_of_three rfl (name_wf rt) (name_wf rs) (intNumeral_wf n)
  | lui rt n => exact instruction_wf_of_two rfl (name_wf rt) (intNumeral_wf n)
  | lw rt n base => exact instruction_wf_of_three rfl (name_wf rt) (intNumeral_wf n) (name_wf base)
  | sw src n base => exact instruction_wf_of_three rfl (storeSource_token_wf src) (intNumeral_wf n) (name_wf base)

/-- Decoding the token form gives the instruction back. -/
theorem decode_tokens (i : Instr) : decode i.tokens = .instr i := by
  obtain ⟨hRRR, hmult, hRRI, hlui, hlw, hsw, hsyscall⟩ := operandShapesDecideDecoding i.tokens.operands i
  cases i with
  | add rd rs rt => exact (hRRR ("add", .add) (by simp)).2 ⟨rd, rs, rt, rfl, rfl⟩
  | sub rd rs rt => exact (hRRR ("sub", .sub) (by simp)).2 ⟨rd, rs, rt, rfl, rfl⟩
  | and rd rs rt => exact (hRRR ("and", .and) (by simp)).2 ⟨rd, rs, rt, rfl, rfl⟩
  | or rd rs rt => exact (hRRR ("or", .or) (by simp)).2 ⟨rd, rs, rt, rfl, rfl⟩
  | slt rd rs rt => exact (hRRR ("slt", .slt) (by simp)).2 ⟨rd, rs, rt, rfl, rfl⟩
  | mult rs rt => exact hmult.2 ⟨rs, rt, rfl, rfl⟩
  | sll rd rt n => exact (hRRI ("sll", .sll) (by simp)).2 ⟨rd, rt, _, n, rfl, intToken_intNumeral n, rfl⟩
  | syscall => exact hsyscall.2 ⟨rfl, rfl⟩
  | addi rt rs n => exact (hRRI ("addi", .addi) (by simp)).2 ⟨rt, rs, _, n, rfl, intToken_intNumeral n, rfl⟩
  | slti rt rs n => exact (hRRI ("slti", .slti) (by simp)).2 ⟨rt, rs, _, n, rfl, intToken_intNumeral n, rfl⟩
  | lui rt n => exact hlui.2 ⟨rt, _, n, rfl, intToken_intNumeral n, rfl⟩
  | lw rt n base => exact hlw.2 ⟨rt, _, n, base, rfl, intToken_intNumeral n, rfl⟩
  | sw src n base =>
    exact hsw.2 ⟨_, src, _, n, base, rfl, intToken_intNumeral n,
      storeSourceToken_eq_some.1 (storeSourceToken_token src), rfl⟩

/-- Settles O18: names and numerals are tokens, and each reads back as what it spells. -/
theorem tokensOfAnInstructionDecodeBack : Obligations.TokensOfAnInstructionDecodeBack :=
  fun i => ⟨tokens_wf i, decode_tokens i⟩

end Sys2Proof
end

section
/-! PROOFS. The 32-bit rendering (30_encoding.md rules R76 to R87): the word decoder against the encoder, the rows
of the opcode table, the printed form, and what the binary encoder answers. -/

namespace Sys2Proof

/-! ### Words and their fields -/

/-- The `syscall` layout is the R-type one with its middle fields zero (rule R77). -/
theorem syscallType_word (op funct : BitVec 6) :
    (Rendering.syscallType op funct).word = (Rendering.rType op 0 0 0 0 funct).word := by
  simp only [Rendering.word]
  rw [show (0#20) = (0#5 ++ 0#5 ++ 0#5 ++ 0#5 : BitVec 20) from rfl]
  ext i hi
  simp only [BitVec.getElem_append]
  grind

theorem decodeWord_rType (p : RegNums) (rs rt rd shamt : BitVec 5) (funct : BitVec 6) :
    decodeWord p (Rendering.rType opSpecial rs rt rd shamt funct).word = decodeSpecial p rs rt rd shamt funct := by
  obtain ⟨hop, hrs, hrt, hrd, hshamt, hfunct⟩ := fields_rType opSpecial rs rt rd shamt funct
  simp only [decodeWord, hop, hrs, hrt, hrd, hshamt, hfunct, if_true]

theorem decodeWord_iType (p : RegNums) {op : BitVec 6} (h : op ≠ opSpecial) (rs rt : BitVec 5) (imm : BitVec 16) :
    decodeWord p (Rendering.iType op rs rt imm).word = decodeImmediate p op rs rt imm := by
  obtain ⟨hop, hrs, hrt, himm⟩ := fields_iType op rs rt imm
  simp only [decodeWord, hop, hrs, hrt, himm, if_neg h]

/-- A word is read by opcode, as its R-type or as its I-type fields. -/
theorem decodeWord_cases (p : RegNums) (w : BitVec 32) :
    (∃ rs rt rd shamt funct, w = (Rendering.rType opSpecial rs rt rd shamt funct).word ∧
      decodeWord p w = decodeSpecial p rs rt rd shamt funct) ∨
    ∃ op rs rt imm, w = (Rendering.iType op rs rt imm).word ∧ decodeWord p w = decodeImmediate p op rs rt imm := by
  by_cases hop : w.extractLsb' 26 6 = opSpecial
  · have hw := word_eq_rType w
    rw [hop] at hw
    exact .inl ⟨_, _, _, _, _, hw, if_pos hop⟩
  · exact .inr ⟨_, _, _, _, word_eq_iType w, if_neg hop⟩

/-! ### From a word to its instruction and back -/

theorem imm16_signedImm (f : BitVec 16) : imm16 (signedImm f) = some f := by
  have hlt := f.toInt_lt
  have hle := f.le_toInt
  simp only [signedImm]
  rw [imm16, if_pos (by omega), BitVec.ofInt_toInt]

theorem sh5_toNat (f : BitVec 5) : sh5 f.toNat = some f := by
  have hlt := f.isLt
  rw [sh5, if_pos (by omega)]
  simp

theorem signedImm_ofInt {n : Int} (h : immFits n = true) : signedImm (BitVec.ofInt 16 n) = n := by
  simp only [immFits, Bool.and_eq_true, decide_eq_true_eq] at h
  rw [signedImm, BitVec.toInt_ofInt, Int.bmod_eq_of_le] <;> omega

theorem imm16_of_immFits {n : Int} (h : immFits n = true) : imm16 n = some (BitVec.ofInt 16 n) := by
  simp only [immFits, Bool.and_eq_true, decide_eq_true_eq] at h
  exact if_pos (by omega)

theorem sh5_of_shamtFits {n : Int} (h : shamtFits n = true) :
    sh5 n = some (BitVec.ofInt 5 n) ∧ ((BitVec.ofInt 5 n).toNat : Int) = n := by
  simp only [shamtFits, Bool.and_eq_true, decide_eq_true_eq] at h
  refine ⟨if_pos h, ?_⟩
  rw [BitVec.toNat_ofInt]
  omega

/-- A word of opcode 0 that decodes is the word of what it decodes to. -/
theorem encode_of_decodeSpecial {p : RegNums} {rs rt rd shamt : BitVec 5} {funct : BitVec 6} {i : Instr}
    (h : decodeSpecial p rs rt rd shamt funct = some i) :
    encode p i = some (Rendering.rType opSpecial rs rt rd shamt funct).word := by
  unfold decodeSpecial at h
  simp only [bind, pure] at h
  by_cases hsyscall : funct = functSyscall
  · rw [if_pos hsyscall] at h
    obtain ⟨⟨rfl, rfl, rfl, rfl⟩, hi⟩ := Option.ite_none_right_eq_some.1 h
    obtain rfl := Option.some.inj hi
    rw [hsyscall, ← syscallType_word]
    rfl
  rw [if_neg hsyscall] at h
  by_cases hsll : funct = functSll
  · rw [if_pos hsll] at h
    obtain ⟨rfl, hi⟩ := Option.ite_none_right_eq_some.1 h
    simp only [Option.bind_eq_some_iff, Option.some.injEq] at hi
    obtain ⟨y, hy, x, hx, rfl⟩ := hi
    obtain rfl := number_of_register hy
    obtain rfl := number_of_register hx
    simp [encode, rendering, sh5_toNat, hsll]
  rw [if_neg hsll] at h
  obtain ⟨rfl, hi⟩ := Option.ite_none_right_eq_some.1 h
  simp only [Option.bind_eq_some_iff] at hi
  obtain ⟨y, hy, z, hz, hi⟩ := hi
  obtain rfl := number_of_register hy
  obtain rfl := number_of_register hz
  by_cases hmult : funct = functMult
  · rw [if_pos hmult] at hi
    obtain ⟨rfl, hi⟩ := Option.ite_none_right_eq_some.1 hi
    obtain rfl := Option.some.inj hi
    rw [hmult]
    rfl
  rw [if_neg hmult, Option.bind_eq_some_iff] at hi
  obtain ⟨x, hx, hi⟩ := hi
  obtain rfl := number_of_register hx
  split_ifs at hi with hadd hsub hand hor hslt <;> cases hi
  · rw [hadd]; rfl
  · rw [hsub]; rfl
  · rw [hand]; rfl
  · rw [hor]; rfl
  · rw [hslt]; rfl

/-- A word of another opcode that decodes is the word of what it decodes to. -/
theorem encode_of_decodeImmediate {p : RegNums} {op : BitVec 6} {rs rt : BitVec 5} {imm : BitVec 16} {i : Instr}
    (h : decodeImmediate p op rs rt imm = some i) :
    encode p i = some (Rendering.iType op rs rt imm).word := by
  have hfields {mk : Reg → Reg → Instr} {op' : BitVec 6}
      (hmk : ∀ x y, rendering p (mk x y) = some (.iType op' (p.number y) (p.number x) imm))
      (h : ((p.register rs).bind fun y => (p.register rt).bind fun x => some (mk x y)) = some i) :
      encode p i = some (Rendering.iType op' rs rt imm).word := by
    simp only [Option.bind_eq_some_iff, Option.some.injEq] at h
    obtain ⟨y, hy, x, hx, rfl⟩ := h
    rw [encode, hmk, number_of_register hy, number_of_register hx]
    rfl
  simp only [decodeImmediate, bind, pure] at h
  split_ifs at h with haddi hslti hlui hrs hlw hsw
  · exact haddi ▸ hfields (fun x y => by simp [rendering, imm16_signedImm]) h
  · exact hslti ▸ hfields (fun x y => by simp [rendering, imm16_signedImm]) h
  · simp only [Option.bind_eq_some_iff, Option.some.injEq] at h
    obtain ⟨x, hx, rfl⟩ := h
    simp [encode, rendering, imm16_signedImm, hlui, hrs, number_of_register hx]
  · exact hlw ▸ hfields (fun x y => by simp [rendering, imm16_signedImm]) h
  · exact hsw ▸ hfields (mk := fun x y => .sw (.reg x) (signedImm imm) y)
      (fun x y => by simp [rendering, imm16_signedImm]) h

/-- Settles O21: the word is one of its fields, and the fields that decode are those the encoder gives. -/
theorem decodedWordIsTheRendering : Obligations.DecodedWordIsTheRendering := by
  intro p w i h
  rcases decodeWord_cases p w with ⟨rs, rt, rd, shamt, funct, rfl, hw⟩ | ⟨op, rs, rt, imm, rfl, hw⟩
  · exact encode_of_decodeSpecial (hw.symm.trans h)
  · exact encode_of_decodeImmediate (hw.symm.trans h)

/-- R-type fields that decode to the instruction they render make a word that does (rules R77, R79). -/
theorem exists_word_of_decodeSpecial {p : RegNums} {i : Instr} {rs rt rd shamt : BitVec 5} {funct : BitVec 6}
    (hr : rendering p i = some (.rType opSpecial rs rt rd shamt funct))
    (hd : decodeSpecial p rs rt rd shamt funct = some i) : ∃ w, encode p i = some w ∧ decodeWord p w = some i :=
  ⟨_, by rw [encode, hr, Option.map_some], (decodeWord_rType ..).trans hd⟩

/-- The same for an instruction with a signed immediate in its I-type field (rule R81). -/
theorem exists_word_of_decodeImmediate {p : RegNums} {mk : Int → Instr} {n : Int} {op : BitVec 6}
    {rs rt : BitVec 5} (hn : immFits n = true) (hop : op ≠ opSpecial)
    (hr : rendering p (mk n) = (imm16 n).map (fun f => .iType op rs rt f))
    (hd : ∀ f, decodeImmediate p op rs rt f = some (mk (signedImm f))) :
    ∃ w, encode p (mk n) = some w ∧ decodeWord p w = some (mk n) := by
  rw [imm16_of_immFits hn, Option.map_some] at hr
  exact ⟨_, by rw [encode, hr, Option.map_some], by rw [decodeWord_iType p hop, hd, signedImm_ofInt hn]⟩

/-- Settles O20: each field of the word reads back as the operand it was made from. -/
theorem wordOfAnInstructionDecodesBack : Obligations.WordOfAnInstructionDecodesBack := by
  intro p hp i hi
  have hreg := register_number hp
  cases i with
  | add rd rs rt => exact exists_word_of_decodeSpecial rfl (by simp only [decodeSpecial, hreg]; rfl)
  | sub rd rs rt => exact exists_word_of_decodeSpecial rfl (by simp only [decodeSpecial, hreg]; rfl)
  | and rd rs rt => exact exists_word_of_decodeSpecial rfl (by simp only [decodeSpecial, hreg]; rfl)
  | or rd rs rt => exact exists_word_of_decodeSpecial rfl (by simp only [decodeSpecial, hreg]; rfl)
  | slt rd rs rt => exact exists_word_of_decodeSpecial rfl (by simp only [decodeSpecial, hreg]; rfl)
  | mult rs rt => exact exists_word_of_decodeSpecial rfl (by simp only [decodeSpecial, hreg]; rfl)
  | sll rd rt shamt =>
    obtain ⟨hfield, hback⟩ := sh5_of_shamtFits hi
    have hd : decodeSpecial p 0 (p.number rt) (p.number rd) (BitVec.ofInt 5 shamt) functSll =
        some (.sll rd rt (BitVec.ofInt 5 shamt).toNat) := by
      simp only [decodeSpecial, hreg]
      rfl
    exact exists_word_of_decodeSpecial (by rw [rendering, hfield, Option.map_some]) (by rw [hd, hback])
  | syscall => exact ⟨_, rfl, by rw [syscallType_word, decodeWord_rType]; rfl⟩
  | addi rt rs imm =>
    exact exists_word_of_decodeImmediate (mk := .addi rt rs) hi (by decide) rfl
      (fun f => by simp only [decodeImmediate, hreg]; rfl)
  | slti rt rs imm =>
    exact exists_word_of_decodeImmediate (mk := .slti rt rs) hi (by decide) rfl
      (fun f => by simp only [decodeImmediate, hreg]; rfl)
  | lui rt imm =>
    exact exists_word_of_decodeImmediate (mk := .lui rt) hi (by decide) rfl
      (fun f => by simp only [decodeImmediate, hreg]; rfl)
  | lw rt offset base =>
    exact exists_word_of_decodeImmediate (mk := fun n => .lw rt n base) hi (by decide) rfl
      (fun f => by simp only [decodeImmediate, hreg]; rfl)
  | sw src offset base =>
    obtain ⟨hsrc, hoffset⟩ := Bool.and_eq_true_iff.1 hi
    cases src with
    | reg rt =>
      exact exists_word_of_decodeImmediate (mk := fun n => .sw (.reg rt) n base) hoffset (by decide) rfl
        (fun f => by simp only [decodeImmediate, hreg]; rfl)
    | lit v => cases hsrc

end Sys2Proof
end

section
/-! PROOFS. The 32-bit rendering (30_encoding.md rules R76, R81 to R87): the rows of the opcode table, the printed
form, and what the binary encoder answers. -/

namespace Sys2Proof

/-! ### The opcode table -/

theorem rType_word_and (op op' : BitVec 6) (rs rs' rt rt' rd rd' sh sh' : BitVec 5) (fn fn' : BitVec 6) :
    (Rendering.rType op rs rt rd sh fn).word &&& (Rendering.rType op' rs' rt' rd' sh' fn').word =
      (Rendering.rType (op &&& op') (rs &&& rs') (rt &&& rt') (rd &&& rd') (sh &&& sh') (fn &&& fn')).word := by
  change (op ++ rs ++ rt ++ rd ++ sh ++ fn) &&& (op' ++ rs' ++ rt' ++ rd' ++ sh' ++ fn') =
    (op &&& op') ++ (rs &&& rs') ++ (rt &&& rt') ++ (rd &&& rd') ++ (sh &&& sh') ++ (fn &&& fn')
  simp only [BitVec.and_append]

theorem iType_word_and (op op' : BitVec 6) (rs rs' rt rt' : BitVec 5) (imm imm' : BitVec 16) :
    (Rendering.iType op rs rt imm).word &&& (Rendering.iType op' rs' rt' imm').word =
      (Rendering.iType (op &&& op') (rs &&& rs') (rt &&& rt') (imm &&& imm')).word := by
  change (op ++ rs ++ rt ++ imm) &&& (op' ++ rs' ++ rt' ++ imm') =
    (op &&& op') ++ (rs &&& rs') ++ (rt &&& rt') ++ (imm &&& imm')
  simp only [BitVec.and_append]

/-- The mask of the three-register rows keeps opcode, shift field and funct. -/
theorem word_and_threeRegisterMask (op : BitVec 6) (rs rt rd sh : BitVec 5) (fn : BitVec 6) :
    (Rendering.rType op rs rt rd sh fn).word &&& 0xFC0007FF = (Rendering.rType op 0 0 0 sh fn).word := by
  rw [show (0xFC0007FF : BitVec 32) = (Rendering.rType (.allOnes 6) 0 0 0 (.allOnes 5) (.allOnes 6)).word by decide,
    rType_word_and]
  simp only [BitVec.and_allOnes, BitVec.ofNat_eq_ofNat, BitVec.and_zero]

/-- The mask of `mult`'s row keeps the destination field too. -/
theorem word_and_multMask (op : BitVec 6) (rs rt rd sh : BitVec 5) (fn : BitVec 6) :
    (Rendering.rType op rs rt rd sh fn).word &&& 0xFC00FFFF = (Rendering.rType op 0 0 rd sh fn).word := by
  rw [show (0xFC00FFFF : BitVec 32) =
      (Rendering.rType (.allOnes 6) 0 0 (.allOnes 5) (.allOnes 5) (.allOnes 6)).word by decide,
    rType_word_and]
  simp only [BitVec.and_allOnes, BitVec.ofNat_eq_ofNat, BitVec.and_zero]

/-- The mask of `sll`'s row keeps opcode, first source and funct. -/
theorem word_and_sllMask (op : BitVec 6) (rs rt rd sh : BitVec 5) (fn : BitVec 6) :
    (Rendering.rType op rs rt rd sh fn).word &&& 0xFFE0003F = (Rendering.rType op rs 0 0 0 fn).word := by
  rw [show (0xFFE0003F : BitVec 32) = (Rendering.rType (.allOnes 6) (.allOnes 5) 0 0 0 (.allOnes 6)).word by decide,
    rType_word_and]
  simp only [BitVec.and_allOnes, BitVec.ofNat_eq_ofNat, BitVec.and_zero]

/-- The mask of most I-type rows keeps the opcode. -/
theorem word_and_opcodeMask (op : BitVec 6) (rs rt : BitVec 5) (imm : BitVec 16) :
    (Rendering.iType op rs rt imm).word &&& 0xFC000000 = (Rendering.iType op 0 0 0).word := by
  rw [show (0xFC000000 : BitVec 32) = (Rendering.iType (.allOnes 6) 0 0 0).word by decide,
    iType_word_and]
  simp only [BitVec.and_allOnes, BitVec.ofNat_eq_ofNat, BitVec.and_zero]

/-- The mask of `lui`'s row keeps the opcode and the unused source field. -/
theorem word_and_luiMask (op : BitVec 6) (rs rt : BitVec 5) (imm : BitVec 16) :
    (Rendering.iType op rs rt imm).word &&& 0xFFE00000 = (Rendering.iType op rs 0 0).word := by
  rw [show (0xFFE00000 : BitVec 32) = (Rendering.iType (.allOnes 6) (.allOnes 5) 0 0).word by decide,
    iType_word_and]
  simp only [BitVec.and_allOnes, BitVec.ofNat_eq_ofNat, BitVec.and_zero]

/-- Every rendering matches its instruction's row (rule R86). -/
theorem rendering_matches_tableRow {p : RegNums} {i : Instr} {r : Rendering} (h : rendering p i = some r) :
    r.word &&& i.tableRow.2 = i.tableRow.1 := by
  cases i with
  | add rd rs rt => cases h; exact (word_and_threeRegisterMask ..).trans rfl
  | sub rd rs rt => cases h; exact (word_and_threeRegisterMask ..).trans rfl
  | and rd rs rt => cases h; exact (word_and_threeRegisterMask ..).trans rfl
  | or rd rs rt => cases h; exact (word_and_threeRegisterMask ..).trans rfl
  | slt rd rs rt => cases h; exact (word_and_threeRegisterMask ..).trans rfl
  | mult rs rt => cases h; exact (word_and_multMask ..).trans rfl
  | sll rd rt shamt =>
    obtain ⟨sh, -, rfl⟩ := Option.map_eq_some_iff.1 h
    exact (word_and_sllMask ..).trans rfl
  | syscall => cases h; rfl
  | addi rt rs imm =>
    obtain ⟨f, -, rfl⟩ := Option.map_eq_some_iff.1 h
    exact (word_and_opcodeMask ..).trans rfl
  | slti rt rs imm =>
    obtain ⟨f, -, rfl⟩ := Option.map_eq_some_iff.1 h
    exact (word_and_opcodeMask ..).trans rfl
  | lui rt imm =>
    obtain ⟨f, -, rfl⟩ := Option.map_eq_some_iff.1 h
    exact (word_and_luiMask ..).trans rfl
  | lw rt offset base =>
    obtain ⟨f, -, rfl⟩ := Option.map_eq_some_iff.1 h
    exact (word_and_opcodeMask ..).trans rfl
  | sw src offset base =>
    cases src with
    | reg rt =>
      obtain ⟨f, -, rfl⟩ := Option.map_eq_some_iff.1 h
      exact (word_and_opcodeMask ..).trans rfl
    | lit v => cases h

/-- Settles O22: the word is a rendering of what it decodes to (O21). -/
theorem decodedWordMatchesItsTableRow : Obligations.DecodedWordMatchesItsTableRow := by
  intro p w i h
  obtain ⟨r, hr, rfl⟩ := Option.map_eq_some_iff.1 (decodedWordIsTheRendering p w i h)
  exact rendering_matches_tableRow hr

/-- One instruction of each mnemonic, in the order of rule R71. -/
def oneOfEachMnemonic : List Instr :=
  [.add .zero .zero .zero, .sub .zero .zero .zero, .and .zero .zero .zero, .or .zero .zero .zero,
    .slt .zero .zero .zero, .mult .zero .zero, .sll .zero .zero 0, .syscall, .addi .zero .zero 0,
    .slti .zero .zero 0, .lui .zero 0, .lw .zero 0 .zero, .sw (.lit 0) 0 .zero]

/-- The opcode table: the mnemonics with their rows. -/
def opcodeTable : List (Token × BitVec 32 × BitVec 32) :=
  oneOfEachMnemonic.map fun i => (i.tokens.mnemonic, i.tableRow)

/-- The operands decide neither the mnemonic nor the row. -/
theorem mem_opcodeTable (i : Instr) : (i.tokens.mnemonic, i.tableRow) ∈ opcodeTable :=
  List.mem_of_getElem? (i := i.ctorIdx) (by cases i <;> rfl)

theorem opcodeTable_disjoint : ∀ a ∈ opcodeTable, ∀ b ∈ opcodeTable, a.1 ≠ b.1 →
    (a.2.1 ^^^ b.2.1) &&& a.2.2 &&& b.2.2 ≠ 0 := by
  decide

/-- Settles O23: by comparing the thirteen rows. -/
theorem opcodePatternsAreDisjoint : Obligations.OpcodePatternsAreDisjoint :=
  fun i j => opcodeTable_disjoint _ (mem_opcodeTable i) _ (mem_opcodeTable j)

/-- Settles O24: by decoding; none of these words names an open register number. -/
theorem specimenWordsDecode : Obligations.SpecimenWordsDecode :=
  fun _ => ⟨rfl, rfl, rfl, rfl, rfl, rfl, rfl, rfl⟩

/-! ### The printed form -/

theorem filter_intercalate {sep : Char} {gs : List (List Char)} (h : ∀ g ∈ gs, sep ∉ g) :
    ([sep].intercalate gs).filter (fun c => c ≠ sep) = gs.flatten := by
  induction gs with
  | nil => simp
  | cons g gs ih =>
    obtain ⟨hg, hgs⟩ := List.forall_mem_cons.1 h
    have hfilter : g.filter (fun c => c ≠ sep) = g :=
      List.filter_eq_self.2 fun c hc => decide_eq_true (fun hsep => hg (hsep ▸ hc))
    cases gs with
    | nil => simpa using hfilter
    | cons g' gs =>
      rw [List.intercalate_cons_cons, List.filter_append, List.filter_append, hfilter, ih hgs]
      simp

theorem blank_notMem_fieldText (w : Nat) (f : BitVec w) : ' ' ∉ fieldText w f := by
  simp only [fieldText, List.mem_map, not_exists, not_and]
  intro k _
  split <;> decide

theorem blank_notMem_groups (r : Rendering) : ∀ g ∈ r.groups, ' ' ∉ g := by
  cases r <;> simp [Rendering.groups, blank_notMem_fieldText]

/-- The fields of each layout, side by side, are the word (rule R77). -/
theorem groups_flatten (r : Rendering) : r.groups.flatten = fieldText 32 r.word := by
  cases r with
  | rType op rs rt rd sh fn =>
    change _ = fieldText (6 + 5 + 5 + 5 + 5 + 6) (op ++ rs ++ rt ++ rd ++ sh ++ fn)
    simp only [fieldText_append]
    simp [Rendering.groups]
  | iType op rs rt imm =>
    change _ = fieldText (6 + 5 + 5 + 16) (op ++ rs ++ rt ++ imm)
    simp only [fieldText_append]
    simp [Rendering.groups]
  | syscallType op fn =>
    change _ = fieldText (6 + 20 + 6) (op ++ 0#20 ++ fn)
    simp only [fieldText_append]
    simp [Rendering.groups]

/-- Settles O25: the blanks stand between the groups only, and the groups spell the word. -/
theorem renderedTextSpellsTheWord : Obligations.RenderedTextSpellsTheWord :=
  fun r => (filter_intercalate (blank_notMem_groups r)).trans (groups_flatten r)

/-! ### What the binary encoder answers -/

theorem imm16_eq_none {n : Int} : imm16 n = none ↔ n < -32768 ∨ 65535 < n := by
  simp only [imm16, ite_eq_right_iff, reduceCtorEq, imp_false]
  omega

theorem sh5_eq_none {n : Int} : sh5 n = none ↔ n < 0 ∨ 31 < n := by
  simp only [sh5, ite_eq_right_iff, reduceCtorEq, imp_false]
  omega

/-- `la` is in no row of the mnemonic table. -/
theorem decode_la {ins : Instruction} (h : ins.mnemonic = "la".toList) : decode ins = .unknown "la".toList := by
  simp only [decode, h]
  rfl

/-- Settles O26: the encoder goes by what decoding answers, and a field by the range of its operand. -/
theorem encoderAnswersAsStated : Obligations.EncoderAnswersAsStated := by
  intro p
  have hla {ins : Instruction} (h : ∀ m, decode ins ≠ .unknown m) : ins.mnemonic ≠ "la".toList :=
    fun hm => h _ (decode_la hm)
  refine ⟨fun ops => if_pos rfl, fun ins i r hd hr => ?_, fun ins i hd hr => ?_, fun ins m hm hd => ?_,
    fun ins m ops hd => ?_, fun rd rs rt i hi => ?_, fun rd rt n => ?_, fun rt rs n i hi => ?_, fun _ _ _ => rfl⟩
  · simp only [render, if_neg (hla (ins := ins) (by simp [hd])), hd, hr]
  · simp only [render, if_neg (hla (ins := ins) (by simp [hd])), hd, hr]
  · simp only [render, if_neg hm, hd]
  · simp only [render, if_neg (hla (ins := ins) (by simp [hd])), hd]
  · revert i
    simp [rendering]
  · simp only [rendering, Option.map_eq_none_iff, sh5_eq_none]
  · revert i
    simp [rendering, imm16_eq_none]

end Sys2Proof
end

section
/-! PROOFS. The loader (30_encoding.md rules R93 to R97): what a data line writes, what a successful assembly gives,
and what becomes of `la`. -/

namespace Sys2Proof.Machine

/-! ### Data lines -/

/-- Everything writing a first value can do: the cell at the pointer is within memory, and the rest goes on behind
it. -/
theorem writeCells_cons {m m' : Memory} {ptr : Nat} {v : Int} {vs : List Int}
    (h : writeCells m ptr (v :: vs) = .ok m') :
    ptr < Config.memSize ∧ writeCells (Memory.put m ptr v) (ptr + 1) vs = .ok m' := by
  simp only [writeCells] at h
  split at h
  · next hptr => exact ⟨hptr, h⟩
  · cases h

theorem get_writeCells_outside {vs : List Int} {m m' : Memory} {ptr a : Nat} (h : writeCells m ptr vs = .ok m')
    (ha : a < ptr ∨ ptr + vs.length ≤ a) : Memory.get m' a = Memory.get m a := by
  induction vs generalizing m ptr with
  | nil =>
    obtain rfl := Except.ok.inj h
    rfl
  | cons v vs ih =>
    obtain ⟨-, hrest⟩ := writeCells_cons h
    rw [List.length_cons] at ha
    rw [ih hrest (by omega), get_put_of_ne m v (by omega)]

theorem get_writeCells {vs : List Int} {m m' : Memory} {ptr k : Nat} (hm : Memory.wf m)
    (h : writeCells m ptr vs = .ok m') (hk : k < vs.length) : Memory.get m' (ptr + k) = vs[k] := by
  induction vs generalizing m ptr k with
  | nil => cases hk
  | cons v vs ih =>
    obtain ⟨hptr, hrest⟩ := writeCells_cons h
    cases k with
    | zero => rw [get_writeCells_outside hrest (by omega), Nat.add_zero, get_put_self hm.1, List.getElem_cons_zero]
    | succ k =>
      have hget := ih (put_wf hm hptr v) hrest (Nat.lt_of_succ_lt_succ hk)
      rwa [Nat.add_right_comm] at hget

/-- Settles O58: each value lands behind the ones before it, and the writes after it go elsewhere. -/
theorem dataLineFillsConsecutiveCells : Obligations.DataLineFillsConsecutiveCells :=
  fun _ _ _ _ hm h => ⟨fun _ => get_writeCells hm h, fun _ => get_writeCells_outside h⟩

/-! ### A successful assembly -/

/-- The image beyond its data part: nothing is written from the data pointer up, and every `la` is replaced. -/
structure Image.Sound (img : Image) : Prop where
  get_of_dataPtr_le : ∀ a, img.dataPtr ≤ a → Memory.get img.mem a = 0
  mnemonic_ne_la : ∀ ins ∈ img.prog, ins.mnemonic ≠ "la".toList

theorem loadLine_sound {img img' : Image} {source : List Char} (himg : img.Sound)
    (h : loadLine img source = .ok img') : img'.Sound := by
  obtain ⟨hzero, hprog⟩ := himg
  rcases loadLine_cases h with ⟨segment, rfl⟩ | ⟨line, hdata⟩ | ⟨line, htext⟩
  · exact ⟨hzero, hprog⟩
  · obtain ⟨vs, -, hcells, hptr, -, hsame, -⟩ := loadDataLine_cases hdata
    refine ⟨fun a ha => ?_, hsame ▸ hprog⟩
    rw [hptr] at ha
    rw [get_writeCells_outside hcells (.inr ha), hzero a (by omega)]
  · obtain ⟨hmem, hptr, -, -, hins⟩ := loadTextLine_cases htext
    refine ⟨fun a ha => hmem ▸ hzero a (hptr ▸ ha), ?_⟩
    rcases hins with hsame | ⟨ins, happend, hla⟩
    · exact hsame ▸ hprog
    · rw [happend]
      simpa [or_imp, forall_and] using ⟨hprog, hla⟩

theorem assemble_sound {text : List Char} {img : Image} (h : assemble text = .ok img) : img.Sound :=
  loadLines_keep loadLine_sound ⟨fun _ _ => rfl, fun _ hins => absurd hins List.not_mem_nil⟩ h

/-- Settles O57: every line keeps both invariants of the image. -/
theorem assembledImageIsSound : Obligations.AssembledImageIsSound := by
  intro text img h
  obtain ⟨hwf, hle⟩ := assemble_dataWf h
  obtain ⟨hzero, hla⟩ := assemble_sound h
  exact ⟨hwf, hle, hzero, hla⟩

/-! ### `la` -/

theorem filter_label_eq_nil {symtab : List (Token × Nat)} {label : Token} (h : ∀ d ∈ symtab, d.1 ≠ label) :
    symtab.filter (fun d => d.1 == label) = [] := by
  simpa [List.filter_eq_nil_iff] using h

theorem labelAddress_absent {symtab : List (Token × Nat)} {label : Token} (h : ∀ d ∈ symtab, d.1 ≠ label) :
    labelAddress symtab label = .error .unknownLabel := by
  rw [labelAddress, filter_label_eq_nil h]
  rfl

theorem labelAddress_single {before after : List (Token × Nat)} {label : Token} (a : Nat)
    (hbefore : ∀ d ∈ before, d.1 ≠ label) (hafter : ∀ d ∈ after, d.1 ≠ label) :
    labelAddress (before ++ (label, a) :: after) label = .ok a := by
  rw [labelAddress, List.filter_append, filter_label_eq_nil hbefore, List.filter_cons_of_pos (by simp),
    filter_label_eq_nil hafter]
  rfl

/-- `la` with two operands is the `addi` of the address looked up, and fails as the lookup does (rule R96). -/
theorem expand_la (symtab : List (Token × Nat)) (dst label : Token) :
    expand symtab "la".toList [dst, label] = (labelAddress symtab label).map (laExpansion dst) := by
  rw [expand, if_pos rfl]
  cases labelAddress symtab label <;> rfl

theorem decode_laExpansion (r : Reg) (a : Nat) : decode (laExpansion r.name a) = .instr (.addi r .zero a) :=
  decode_tokens (.addi r .zero a)

/-- Settles O56: the expansion is the token form of the `addi`, which decodes back (O18). -/
theorem laBecomesAddi : Obligations.LaBecomesAddi := by
  intro symtab r label
  have hfound : ∀ a, labelAddress symtab label = .ok a →
      ∃ ins, expand symtab "la".toList [r.name, label] = .ok ins ∧ decode ins = .instr (.addi r .zero a) :=
    fun a ha => ⟨_, by rw [expand_la, ha]; rfl, decode_laExpansion r a⟩
  refine ⟨?_, hfound, fun habsent => ?_⟩
  · rintro before after a rfl hbefore hafter
    exact hfound a (labelAddress_single a hbefore hafter)
  · rw [expand_la, labelAddress_absent habsent]
    rfl

end Sys2Proof.Machine
end

section
/-! PROOFS. Register arithmetic and logic (40_arithmetic_logic.md): each meaning as one write back, for `mult` as
the two writes of a split product, and the frames that follow. -/

namespace Sys2Proof.Machine

/-! ### The meanings -/

theorem exec_add (rd rs rt : Reg) (s : State) :
    exec (.add rd rs rt) s = writeBack s rd (s.reg rs + s.reg rt) := rfl

theorem exec_sub (rd rs rt : Reg) (s : State) :
    exec (.sub rd rs rt) s = writeBack s rd (s.reg rs - s.reg rt) := rfl

theorem exec_and (rd rs rt : Reg) (s : State) :
    exec (.and rd rs rt) s = writeBack s rd (bitAnd (s.reg rs) (s.reg rt)) := rfl

theorem exec_or (rd rs rt : Reg) (s : State) :
    exec (.or rd rs rt) s = writeBack s rd (bitOr (s.reg rs) (s.reg rt)) := rfl

theorem exec_slt (rd rs rt : Reg) (s : State) :
    exec (.slt rd rs rt) s = writeBack s rd (if s.reg rs < s.reg rt then 1 else 0) := rfl

/-- `mult` (rule R116): bit 32 splits the product into remainder and rounded-down quotient. -/
theorem exec_mult (rs rt : Reg) (s : State) :
    exec (.mult rs rt) s = .next ((s.setReg .lo (s.reg rs * s.reg rt % 4294967296)).setReg .hi
      (s.reg rs * s.reg rt / 4294967296)).complete := by
  simp [exec, execMult, bitField, shiftRight]

/-- `sll` by a negative amount (D4). -/
theorem exec_sll_error {rd rt : Reg} {shamt : Int} {s : State} (h : shamt < 0) :
    exec (.sll rd rt shamt) s = .next (s.takeFault .malformedOperand) := by
  have hk : shiftAmount shamt = .error .malformedOperand := if_pos h
  exact finish_error (by rw [hk]; rfl)

/-! ### What they write -/

/-- Settles O29: the bits of `AND` are those products. -/
theorem andWritesTheProductOfBits : Obligations.AndWritesTheProductOfBits := by
  intro rd rs rt s
  obtain ⟨t, hexec, hwrites⟩ := writeBack_spec s rd (bitAnd (s.reg rs) (s.reg rt))
  exact ⟨t, _, (exec_and rd rs rt s).trans hexec, hwrites, bitOf_bitAnd _ _⟩

/-- Settles O30: the bits of `OR` are those maxima. -/
theorem orWritesTheMaximumOfBits : Obligations.OrWritesTheMaximumOfBits := by
  intro rd rs rt s
  obtain ⟨t, hexec, hwrites⟩ := writeBack_spec s rd (bitOr (s.reg rs) (s.reg rt))
  exact ⟨t, _, (exec_or rd rs rt s).trans hexec, hwrites, bitOf_bitOr _ _⟩

/-- Settles O27: `add` is a write back of the sum. -/
theorem addWritesTheSum : Obligations.AddWritesTheSum :=
  fun rd rs rt s => exec_add rd rs rt s ▸ writeBack_spec s rd _

/-- Settles O28: `sub` is a write back of the difference. -/
theorem subWritesTheDifference : Obligations.SubWritesTheDifference :=
  fun rd rs rt s => exec_sub rd rs rt s ▸ writeBack_spec s rd _

/-- Settles O32: `slt` is a write back of the comparison. -/
theorem sltWritesTheComparison : Obligations.SltWritesTheComparison :=
  fun rd rs rt s => exec_slt rd rs rt s ▸ writeBack_spec s rd _

/-- The floor of rule R116's rational quotient is the quotient of integer division. -/
theorem floor_product_div (a b : Int) : ⌊(a * b : ℚ) / 4294967296⌋ = a * b / 4294967296 := by
  rw [← Int.cast_mul]
  exact Rat.floor_intCast_div_natCast (a * b) 4294967296

/-- Settles O33: integer division by 2^32 rounds down, so `$HI` is the floor of the exact quotient, and quotient
and remainder give the product back. -/
theorem multSplitsTheExactProduct : Obligations.MultSplitsTheExactProduct := by
  intro rs rt s
  refine ⟨_, exec_mult rs rt s, rfl, (floor_product_div _ _).symm, Int.ediv_mul_add_emod _ _,
    Int.emod_nonneg _ (by decide), Int.emod_lt_of_pos _ (by decide), fun r hr => ?_, sameCells_of_mem rfl,
    ⟨rfl, rfl, rfl⟩, rfl, rfl, rfl⟩
  obtain ⟨hrhi, hrlo⟩ : r ≠ .hi ∧ r ≠ .lo := by simpa using hr
  rw [complete_reg, reg_setReg_of_ne _ _ hrhi, reg_setReg_of_ne _ _ hrlo]

/-- Settles O34: an amount from 0 up is no error, and `sll` is then a write back of the shifted value. -/
theorem sllWritesTheExactShift : Obligations.SllWritesTheExactShift :=
  fun rd rt _ s h => exec_sll_ok h ▸ writeBack_spec s rd (shiftLeft (s.reg rt) _)

/-- Settles O35: the amount is checked before anything is written. -/
theorem sllByNegativeAmountFaults : Obligations.SllByNegativeAmountFaults :=
  fun _ _ _ s h => ⟨_, exec_sll_error h, takeFault_spec s .malformedOperand⟩

end Sys2Proof.Machine
end

section
/-! PROOFS. The immediate instructions (41_immediate.md): each meaning as one write back of the value the
statements name. -/

namespace Sys2Proof.Machine

/-! ### The meanings -/

theorem exec_addi (rt rs : Reg) (imm : Int) (s : State) :
    exec (.addi rt rs imm) s = writeBack s rt (s.reg rs + imm) := rfl

theorem exec_slti (rt rs : Reg) (imm : Int) (s : State) :
    exec (.slti rt rs imm) s = writeBack s rt (if s.reg rs < imm then 1 else 0) := rfl

/-- `lui` (rule R133): the shift by 16 is the product with 2^16, whatever `rt` held. -/
theorem exec_lui (rt : Reg) (imm : Int) (s : State) :
    exec (.lui rt imm) s = writeBack s rt (imm * 65536) := rfl

/-! ### What they write -/

/-- Settles O36: `addi` is a write back of the sum with the immediate. -/
theorem addiWritesTheSum : Obligations.AddiWritesTheSum :=
  fun rt rs imm s => exec_addi rt rs imm s ▸ writeBack_spec s rt _

/-- Settles O37: `slti` is a write back of the comparison with the immediate. -/
theorem sltiWritesTheComparison : Obligations.SltiWritesTheComparison :=
  fun rt rs imm s => exec_slti rt rs imm s ▸ writeBack_spec s rt _

/-- Settles O38: `lui` is a write back of the shifted immediate. -/
theorem luiAssignsTheUpperImmediate : Obligations.LuiAssignsTheUpperImmediate :=
  fun rt imm s => exec_lui rt imm s ▸ writeBack_spec s rt _

end Sys2Proof.Machine
end

section
/-! PROOFS. Load and store within the 256 cells (42_load_store.md): the load is one write back of the cell, the
store one write of the memory. -/

namespace Sys2Proof.Machine

/-- Settles O40: within the bounds the read answers the cell, and `lw` is then a write back of it. -/
theorem lwLoadsTheCell : Obligations.LwLoadsTheCell := by
  intro rt base offset s h0 h1
  have hread := memRead_ok (m := s.mem) h0 h1
  obtain ⟨t, hexec, hwrites⟩ := writeBack_spec s rt (Memory.get s.mem (offset + s.reg base).toNat)
  exact ⟨t, _, hread, (exec_lw_ok hread).trans hexec, hwrites⟩

/-- Settles O42: within the bounds the write succeeds, `sw` only replaces the memory by the written one, and that
one reads differently at the address alone. -/
theorem swStoresTheValue : Obligations.SwStoresTheValue := by
  intro src base offset s hwf h0 h1
  have hm := memWrite_ok (m := s.mem) (storeValue s src) h0 h1
  have hread := memRead_memWrite hwf hm
  refine ⟨_, exec_sw_ok hm, rfl, ?_, fun a ha => (hread a).trans (if_neg ha), fun r _ => ?_, ⟨rfl, rfl, rfl⟩,
    rfl, rfl, rfl⟩
  · have hstored := (hread _).trans (if_pos rfl)
    cases src with
    | reg rt => exact hstored
    | lit v => exact hstored
  · rw [complete_reg, reg_withMem]

end Sys2Proof.Machine
end

section
/-! PROOFS. `syscall` and the two decode results that are no instruction (43_system.md): what each selector in
`$v0` does, when the string scan succeeds, and which mnemonics decode to nothing. -/

namespace Sys2Proof.Machine

/-! ### The string scan -/

/-- When a scan with fuel left succeeds: the cell at its start can be read, and it is the terminator, or the first
of the string that a scan from the next address completes (rule R153). -/
theorem scanString_succ_eq_ok {m : Memory} {n : Nat} {a : Int} {cs : List Int} :
    scanString m (n + 1) a = .ok cs ↔ ∃ c, memRead m a = .ok c ∧
      (c = 0 ∧ cs = [] ∨ c ≠ 0 ∧ ∃ rest, scanString m n (a + 1) = .ok rest ∧ cs = c :: rest) := by
  rw [scanString]
  cases memRead m a with
  | error e => simp
  | ok c =>
    by_cases hc : c = 0
    · simp [hc, eq_comm]
    · cases scanString m n (a + 1) with
      | error e => simp [hc]
      | ok rest => simp [hc, eq_comm]

/-- A zero-terminated string is what a scan reads whose fuel covers it and its terminator. -/
theorem scanString_of_terminated {m : Memory} {cs : List Int} {n : Nat} {a : Int} (hn : cs.length ≤ n)
    (hcells : ∀ (k : Nat) (h : k < cs.length), memRead m (a + k) = .ok cs[k] ∧ cs[k] ≠ 0)
    (hzero : memRead m (a + cs.length) = .ok 0) : scanString m (n + 1) a = .ok cs := by
  induction cs generalizing n a with
  | nil => exact scanString_succ_eq_ok.2 ⟨0, by simpa using hzero, .inl ⟨rfl, rfl⟩⟩
  | cons c cs ih =>
    obtain ⟨n, rfl⟩ := Nat.exists_eq_add_of_le' (Nat.one_le_of_lt hn)
    have hshift (k : Nat) : a + 1 + k = a + (k + 1 : Nat) := by push_cast; ring
    obtain ⟨hread, hne⟩ := hcells 0 (Nat.zero_lt_succ _)
    have hrest : scanString m (n + 1) (a + 1) = .ok cs :=
      ih (Nat.le_of_succ_le_succ hn) (fun k h => hshift k ▸ hcells (k + 1) (Nat.succ_lt_succ h))
        (hshift cs.length ▸ hzero)
    exact scanString_succ_eq_ok.2 ⟨c, by simpa using hread, .inr ⟨hne, cs, hrest, rfl⟩⟩

/-- A scan that succeeds starts at an address from 0 up and meets a zero cell. -/
theorem exists_zero_of_scanString_ok {m : Memory} {n : Nat} {a : Int} {cs : List Int}
    (h : scanString m n a = .ok cs) : 0 ≤ a ∧ ∃ b, a ≤ b ∧ memRead m b = .ok 0 := by
  induction n generalizing a cs with
  | zero => cases h
  | succ n ih =>
    obtain ⟨c, hread, hend⟩ := scanString_succ_eq_ok.1 h
    obtain ⟨hstart, -, -⟩ := memRead_cases hread
    rcases hend with ⟨rfl, -⟩ | ⟨-, rest, hrest, -⟩
    · exact ⟨hstart, a, le_rfl, hread⟩
    · obtain ⟨-, b, hb, hzero⟩ := ih hrest
      exact ⟨hstart, b, by omega, hzero⟩

/-! ### The services -/

theorem exec_syscall_printInt {s : State} (h : s.reg .v0 = 1) :
    exec .syscall s = .next (s.emit (.outInt (s.reg .a0))).complete := if_pos h

theorem exec_syscall_printString {s : State} (h : s.reg .v0 = 4) :
    exec .syscall s = servicePrintString s := by simp [exec, execSyscall, h]

theorem exec_syscall_printString_ok {s : State} {cs : List Int} (h : s.reg .v0 = 4)
    (hscan : scanString s.mem (Config.memSize + 1) (s.reg .a0) = .ok cs) :
    exec .syscall s = .next (s.emit (.outStr cs)).complete :=
  (exec_syscall_printString h).trans (finish_ok (by rw [hscan]; rfl))

theorem exec_syscall_printString_error {s : State} {e : FaultReason} (h : s.reg .v0 = 4)
    (hscan : scanString s.mem (Config.memSize + 1) (s.reg .a0) = .error e) :
    exec .syscall s = .next (s.takeFault e) :=
  (exec_syscall_printString h).trans (finish_error (by rw [hscan]; rfl))

theorem exec_syscall_halt {s : State} (h : s.reg .v0 = 10) : exec .syscall s = .next s.halt := by
  simp [exec, execSyscall, serviceHalt, h]

theorem exec_syscall_unknown {s : State} (h1 : s.reg .v0 ≠ 1) (h4 : s.reg .v0 ≠ 4) (h10 : s.reg .v0 ≠ 10) :
    exec .syscall s = .next (s.takeFault .unknownSyscall) := by
  simp [exec, execSyscall, h1, h4, h10]

/-- What a service that only prints does: one event and `pc + 1`. -/
theorem emit_complete_spec (s : State) (e : Event) :
    (s.emit e).complete.log = s.log ++ [e] ∧ (s.emit e).complete.pc = s.pc + 1 ∧
      (s.emit e).complete.status = s.status ∧ SameRegsBut [] s (s.emit e).complete ∧
      SameCells s (s.emit e).complete ∧ SameProgram s (s.emit e).complete :=
  ⟨rfl, rfl, rfl, fun r _ => by simp, sameCells_of_mem rfl, rfl, rfl, rfl⟩

/-- Settles O45: the string and its terminator lie within the 256 cells, so the scan's fuel of 257 reads it all. -/
theorem syscallPrintsTheString : Obligations.SyscallPrintsTheString := by
  intro s cs hv0 hcells hzero
  obtain ⟨-, hend, -⟩ := memRead_cases hzero
  have hstart : 0 ≤ s.reg .a0 := by
    cases cs with
    | nil => simpa using (memRead_cases hzero).1
    | cons c cs => simpa using (memRead_cases (hcells 0 (Nat.zero_lt_succ _)).1).1
  have hlen : cs.length ≤ Config.memSize := by
    simp only [Config.memSize]
    omega
  exact ⟨_, exec_syscall_printString_ok hv0 (scanString_of_terminated hlen hcells hzero), emit_complete_spec s _⟩

/-- Settles O46: a scan that succeeds has a start from 0 up and a zero cell ahead, and its only fault is
`MemoryFault`. -/
theorem stringScanLeavingMemoryFaults : Obligations.StringScanLeavingMemoryFaults := by
  intro s hv0 hno
  cases hscan : scanString s.mem (Config.memSize + 1) (s.reg .a0) with
  | ok cs =>
    obtain ⟨hstart, b, hb, hzero⟩ := exists_zero_of_scanString_ok hscan
    exact absurd hzero (hno b hstart hb)
  | error e =>
    obtain rfl := scanString_fault hscan
    exact ⟨_, exec_syscall_printString_error hv0 hscan, takeFault_spec s .memoryFault⟩

/-- Settles O44: service 1 only emits the integer. -/
theorem syscallPrintsTheInteger : Obligations.SyscallPrintsTheInteger :=
  fun s h => ⟨_, exec_syscall_printInt h, emit_complete_spec s _⟩

/-- Settles O47: HALTED is terminal. -/
theorem syscallHalts : Obligations.SyscallHalts :=
  fun s h => ⟨s.halt, exec_syscall_halt h, rfl, rfl, rfl, fun r _ => halt_reg s r, sameCells_of_mem rfl,
    ⟨rfl, rfl, rfl⟩, terminal_no_successor (.inl rfl)⟩

/-- Settles O48: no service is selected, and what is left is fault entry. -/
theorem unknownSelectorFaults : Obligations.UnknownSelectorFaults :=
  fun s h1 h4 h10 => ⟨_, exec_syscall_unknown h1 h4 h10, takeFault_spec s .unknownSyscall⟩

/-! ### Decode results that are no instruction -/

/-- A mnemonic decodes as unknown exactly when no row of the table has it, whatever the operands. -/
theorem decode_unknown_iff {ins : Instruction} :
    (∃ m, decode ins = .unknown m) ↔ ins.mnemonic ∉ mnemonicTable.map Prod.fst := by
  have hrow : mnemonicTable.lookup ins.mnemonic = none ↔ ins.mnemonic ∉ mnemonicTable.map Prod.fst := by
    simp only [List.lookup_eq_none_iff, bne_iff_ne, ne_eq, List.mem_map, not_exists, not_and,
      eq_comm (a := ins.mnemonic)]
  rw [← hrow, decode]
  split
  · next h => simp [h]
  · next operands h => split <;> simp [h]

/-- Settles O10: the mnemonic is in no row, so the step is fault entry, and FAULTED is terminal. -/
theorem unrecognisedMnemonicFaults : Obligations.UnrecognisedMnemonicFaults := by
  intro s ins hrun hfetch hnot
  obtain ⟨m, hdecode⟩ := decode_unknown_iff.2 hnot
  have hstep : step s = .next (s.takeFault .unknownInstruction) := by
    rw [step_of_enabled hrun hfetch, hdecode]
    rfl
  exact ⟨_, hstep, takeFault_spec s _, terminal_no_successor (.inr (.inl ⟨_, rfl⟩))⟩

/-- Settles O11: the mnemonic is in a row and no instruction results, so decoding answers malformed. -/
theorem recognisedMnemonicWithBadOperandsFaults : Obligations.RecognisedMnemonicWithBadOperandsFaults := by
  intro s ins hrun hfetch hmem hnone
  refine ⟨s.takeFault .malformedOperand, ?_, takeFault_spec s _⟩
  rw [step_of_enabled hrun hfetch]
  cases hdecode : decode ins with
  | instr i => exact absurd hdecode (hnone i)
  | unknown m => exact absurd hmem (decode_unknown_iff.1 ⟨m, hdecode⟩)
  | malformed m ops => rfl

end Sys2Proof.Machine
end

section
/-! PROOFS. The step and the run (44_step_and_dispatch.md): when a step has a successor and how it stops without
one, what one step can change, and where a run ends. -/

namespace Sys2Proof.Machine

/-! ### When a step has a successor -/

theorem execSyscall_next (s : State) : ∃ t, execSyscall s = .next t := by
  simp only [execSyscall]
  split_ifs
  · exact ⟨_, rfl⟩
  · exact finish_next s _
  · exact ⟨_, rfl⟩
  · exact ⟨_, rfl⟩

/-- Every meaning ends in a write back, in `finish` or in a service, and each of these answers a next state. -/
theorem exec_next (i : Instr) (s : State) : ∃ t, exec i s = .next t := by
  cases i with
  | sll rd rt shamt => exact finish_next s _
  | lw rt offset base => exact finish_next s _
  | sw src offset base => exact finish_next s _
  | syscall => exact execSyscall_next s
  | _ => exact ⟨_, rfl⟩

theorem execKind_next (k : Kind) (s : State) : ∃ t, execKind k s = .next t := by
  cases k with
  | instr i => exact exec_next i s
  | unknown m => exact ⟨_, rfl⟩
  | malformed m ops => exact ⟨_, rfl⟩

theorem exists_step_of_enabled {s : State} (h : s.Enabled) : ∃ t, step s = .next t := by
  obtain ⟨hrun, hlt⟩ := h
  rw [step_of_enabled hrun (List.getElem?_eq_getElem hlt)]
  exact execKind_next _ s

/-- Settles O12: every meaning answers a next state, and an enabled step is the execution of a kind. -/
theorem everyInstructionAnswersANextState : Obligations.EveryInstructionAnswersANextState :=
  ⟨exec_next, fun _ => exists_step_of_enabled⟩

/-- Settles O9: the fetch answers the Instruction, and its kind is executed. -/
theorem stepRunsTheDecodedInstruction : Obligations.StepRunsTheDecodedInstruction := by
  intro s ins i hrun hfetch hdecode
  rw [step_of_enabled hrun hfetch, hdecode]
  rfl

/-! ### How a step stops -/

theorem step_of_halted {s : State} (h : s.status = .halted) : step s = .fault .runHalted := by
  simp [step, fetch, h]

theorem step_of_faulted {s : State} {reason : FaultReason} (h : s.status = .faulted reason) :
    step s = .fault .runFaulted := by
  simp [step, fetch, h]

theorem step_of_exhausted {s : State} (hrun : s.status = .running) (hend : s.prog.length ≤ s.pc) :
    step s = .fault .runExhausted := by
  simp [step, fetch, hrun, List.getElem?_eq_none hend]

theorem terminal_or_enabled (s : State) : s.Terminal ∨ s.Enabled := by
  cases hst : s.status with
  | halted => exact .inl (.inl hst)
  | faulted reason => exact .inl (.inr (.inl ⟨reason, hst⟩))
  | running =>
    rcases le_or_gt s.prog.length s.pc with hend | hlt
    · exact .inl (.inr (.inr ⟨hst, hend⟩))
    · exact .inr ⟨hst, hlt⟩

theorem terminal_iff_not_enabled {s : State} : s.Terminal ↔ ¬ s.Enabled :=
  ⟨terminal_not_enabled, (terminal_or_enabled s).resolve_right⟩

theorem terminal_iff_no_successor {s : State} : s.Terminal ↔ ∀ t, step s ≠ .next t := by
  refine ⟨terminal_no_successor, fun hno => terminal_iff_not_enabled.2 fun henabled => ?_⟩
  obtain ⟨t, hstep⟩ := exists_step_of_enabled henabled
  exact hno t hstep

/-- Settles O17: the three terminal conditions exclude one another, and each fixes how the step stops. -/
theorem terminalExactlyWhenNoSuccessor : Obligations.TerminalExactlyWhenNoSuccessor := by
  refine fun s => ⟨terminal_iff_no_successor, terminal_iff_not_enabled, ?_⟩
  rcases terminal_or_enabled s with (hhalted | ⟨reason, hfaulted⟩ | ⟨hrun, hend⟩) | henabled
  · simp [step_of_halted hhalted, hhalted]
  · simp [step_of_faulted hfaulted, hfaulted]
  · simp [step_of_exhausted hrun hend, hrun, hend]
  · obtain ⟨t, hstep⟩ := exists_step_of_enabled henabled
    obtain ⟨hrun, hlt⟩ := henabled
    simp [hstep, hrun, hlt]

/-! ### What one step changes -/

/-- Settles O13: normal completion keeps the status RUNNING, so the status tells the three outcomes apart. -/
theorem stepEndsNormallyHaltsOrFaults : Obligations.StepEndsNormallyHaltsOrFaults := by
  intro s t h
  rcases step_outcome h with hc | rfl | ⟨reason, rfl⟩
  · obtain ⟨hrun, -⟩ := step_enabled h
    have ht : t.status = .running := hc.status.trans hrun
    obtain ⟨events, hlog, hnone⟩ := hc.log
    refine ⟨fun _ => ⟨hc.pc, ?_⟩, by simp [ht], by simp [ht]⟩
    rw [hlog, faultCount_append, hnone, Nat.add_zero]
  · exact ⟨by simp, fun _ => ⟨rfl, rfl, fun r _ => halt_reg s r, sameCells_of_mem rfl, rfl, rfl, rfl⟩, by simp⟩
  · refine ⟨by simp, by simp, fun reason' ht => ?_⟩
    obtain rfl : reason = reason' := Status.faulted.inj ht
    exact takeFault_spec s reason

theorem exec_sameRegsBut {i : Instr} {s t : State} (h : exec i s = .next t) :
    SameRegsBut (destinations (.instr i)) s t := by
  intro q hq
  rcases exec_cases h with ⟨r, v, hdest, rfl⟩ | ⟨a, b, v, w, rfl, rfl⟩ | ⟨src, offset, base, m, -, -, rfl⟩ |
    ⟨-, e, -, rfl⟩ | ⟨-, -, rfl⟩ | ⟨reason, rfl⟩
  · have hne : q ≠ r := by simpa [hdest] using hq
    rw [complete_reg, reg_setReg_of_ne s v hne]
  · obtain ⟨hhi, hlo⟩ : q ≠ .hi ∧ q ≠ .lo := by simpa [destinations] using hq
    rw [complete_reg, reg_setReg_of_ne _ w hhi, reg_setReg_of_ne s v hlo]
  · rw [complete_reg, reg_withMem]
  · rw [complete_reg, emit_reg]
  · exact halt_reg s q
  · exact takeFault_reg s reason q

theorem exec_log {i : Instr} {s t : State} (h : exec i s = .next t) :
    t.log = s.log ∨ ∃ e, t.log = s.log ++ [e] := by
  rcases exec_cases h with ⟨r, v, -, rfl⟩ | ⟨a, b, v, w, -, rfl⟩ | ⟨src, offset, base, m, -, -, rfl⟩ |
    ⟨-, e, -, rfl⟩ | ⟨-, -, rfl⟩ | ⟨reason, rfl⟩
  · exact .inl (by simp)
  · exact .inl (by simp)
  · exact .inl rfl
  · exact .inr ⟨e, rfl⟩
  · exact .inl rfl
  · exact .inr ⟨.fault reason, rfl⟩

/-- Elsewhere a write leaves what is read, in canonical form or not. -/
theorem memRead_memWrite_of_ne {m m' : Memory} {a b v : Int} (h : memWrite m a v = .ok m') (hne : b ≠ a) :
    memRead m' b = memRead m b := by
  obtain ⟨h0, h1, rfl⟩ := memWrite_cases h
  by_cases hin : 0 ≤ b ∧ b < 256
  · rw [memRead_ok hin.1 hin.2, memRead_ok hin.1 hin.2, get_put_of_ne m v (by omega)]
  · rw [memRead_error (by omega), memRead_error (by omega)]

theorem exec_sw_sameCellsBut {src : StoreSource} {offset : Int} {base : Reg} {s t : State}
    (h : exec (.sw src offset base) s = .next t) : SameCellsBut (effectiveAddress s offset base) s t := by
  intro a hne
  cases hw : memWrite s.mem (effectiveAddress s offset base) (storeValue s src) with
  | ok m =>
    obtain rfl := Host.Outcome.next.inj ((exec_sw_ok hw).symm.trans h)
    exact memRead_memWrite_of_ne hw hne
  | error e =>
    obtain rfl := Host.Outcome.next.inj ((exec_sw_error hw).symm.trans h)
    rfl

/-- Settles O16: an instruction writes its destinations, `sw` alone a cell, and at most one event is logged; fault
entry, which is all that other decode results do, leaves registers and cells. -/
theorem stepWritesAtMostOneRegisterCellAndEvent : Obligations.StepWritesAtMostOneRegisterCellAndEvent := by
  intro s t ins hfetch h
  have hprog := step_sameProgram h
  obtain ⟨hrun, -⟩ := step_enabled h
  rw [step_of_enabled hrun hfetch] at h
  rcases execKind_cases h with ⟨i, hi, hexec⟩ | ⟨-, reason, rfl⟩
  · rw [hi]
    refine ⟨exec_sameRegsBut hexec, ?_, fun hno => ?_, exec_log hexec, hprog⟩
    · rintro src offset base ⟨rfl⟩
      exact exec_sw_sameCellsBut hexec
    · exact onlyStoresChangeMemory i s t hexec fun src offset base hsw => hno src offset base (congrArg _ hsw)
  · exact ⟨fun r _ => takeFault_reg s reason r, fun _ _ _ _ _ _ => rfl, fun _ => sameCells_of_mem rfl,
      .inr ⟨.fault reason, rfl⟩, hprog⟩

/-! ### Where a run ends -/

/-- Settles O54: a run that goes on has gone on at every step, each time to `pc + 1`. -/
theorem instructionsExecuteInOrder : Obligations.InstructionsExecuteInOrder := by
  intro n s t h ht
  induction h with
  | refl => rfl
  | tail _ hlast ih =>
    obtain ⟨hrun, -⟩ := step_enabled hlast
    rw [step_pc_of_running hlast ht, ih hrun, Nat.add_assoc]

theorem not_enabled_of_length_le {s : State} (h : s.prog.length ≤ s.pc) : ¬ s.Enabled :=
  fun ⟨_, hlt⟩ => hlt.not_ge h

/-- As many steps as there are instructions left reach the end, since each step moves `pc` forward (rule R181). -/
theorem terminal_stepsUpTo {n : Nat} {s : State} (h : s.prog.length ≤ s.pc + n) : (stepsUpTo n s).Terminal := by
  induction n generalizing s with
  | zero => exact terminal_iff_not_enabled.2 (not_enabled_of_length_le h)
  | succ n ih =>
    simp only [stepsUpTo]
    split
    · next t hstep =>
      obtain ⟨hprog, -, -⟩ := step_sameProgram hstep
      have hpc := step_pc_lt hstep
      exact ih (by rw [hprog]; omega)
    · next hstop => exact terminal_iff_no_successor.2 (by simp [hstop])
    · next hstop => exact terminal_iff_no_successor.2 (by simp [hstop])

theorem hostRun_terminal (s : State) : s.hostRun.Terminal := terminal_stepsUpTo (by omega)

/-- Settles O53: the steps of the bounded run, which has a step for every instruction left. -/
theorem runReachesATerminalState : Obligations.RunReachesATerminalState := by
  intro s
  obtain ⟨n, hn, hsteps⟩ := exists_steps_stepsUpTo (s.prog.length - s.pc) s
  exact ⟨n, s.hostRun, hn, hsteps, hostRun_terminal s, rfl⟩

/-- More steps than the run's bound change nothing: the run stands in a terminal state by then. -/
theorem stepsUpTo_eq_hostRun {n : Nat} {s : State} (h : s.prog.length - s.pc ≤ n) : stepsUpTo n s = s.hostRun := by
  obtain ⟨k, hk, hsteps⟩ := exists_steps_stepsUpTo (s.prog.length - s.pc) s
  obtain ⟨m, rfl⟩ := Nat.exists_eq_add_of_le (hk.trans h)
  rw [stepsUpTo_add hsteps m]
  exact stepsUpTo_terminal m (hostRun_terminal s)

/-- Settles O55: with a bound ample for both runs, the steps taken and then the run are one bounded run. -/
theorem singleStepsThenRunEndAlike : Obligations.SingleStepsThenRunEndAlike := by
  intro n s t h
  obtain ⟨hprog, -, -⟩ := steps_sameProgram h
  calc t.hostRun = stepsUpTo s.prog.length t := (stepsUpTo_eq_hostRun (by rw [hprog]; omega)).symm
    _ = stepsUpTo (n + s.prog.length) s := (stepsUpTo_add h _).symm
    _ = s.hostRun := stepsUpTo_eq_hostRun (by omega)

/-! ### The invariant under the host's calls -/

theorem hostCall_inv (c : HostCall) {s : State} (h : s.Inv) : (hostCall c s).Inv := by
  cases c with
  | reset => exact hostReset_inv s
  | load source => exact hostLoad_inv s source
  | step =>
    obtain ⟨n, hsteps⟩ := exists_steps_hostStep s
    exact steps_keep step_inv hsteps h
  | run =>
    obtain ⟨n, -, hsteps⟩ := exists_steps_stepsUpTo (s.prog.length - s.pc) s
    exact steps_keep step_inv hsteps h

theorem reachable_inv {s : State} (h : Reachable s) : s.Inv := by
  induction h with
  | start => exact invariantHoldsAtReset
  | call c _ ih => exact hostCall_inv c ih

/-- Settles O5: reset and load establish the invariant, step requests and runs are steps, which keep it; and
every reachable state is a sequence of calls away from reset. -/
theorem everyReachableStateHasInvariant : Obligations.EveryReachableStateHasInvariant :=
  ⟨fun c _ => hostCall_inv c, fun _ => reachable_inv⟩

end Sys2Proof.Machine
end

section
/-! PROOFS. The reset call and the load call (70_reset_and_hazards.md): the state after a reset, the launch
state, and the state a failed load leaves. -/

namespace Sys2Proof.Machine

/-! ### The reset call -/

theorem hostReset_reg_eq (s : State) (r : Reg) : s.hostReset.reg r = if r = .sp then 255 else 0 :=
  (hostReset_reg s r).trans (reset_reg r)

theorem memRead_hostReset (s : State) {a : Int} (h0 : 0 ≤ a) (h1 : a < 256) :
    memRead s.hostReset.mem a = .ok 0 :=
  memRead_ok h0 h1

/-- The program is empty, so `pc` 0 is its end. -/
theorem hostReset_terminal (s : State) : s.hostReset.Terminal :=
  terminal_iff_not_enabled.2 (not_enabled_of_length_le le_rfl)

/-- Settles O2: the reset call's state is the reset state with the old log, so each field is read off. -/
theorem hostResetRestoresAllButTheLog : Obligations.HostResetRestoresAllButTheLog :=
  fun s => ⟨hostReset_reg_eq s, hostReset_pc s, fun _ => memRead_hostReset s, hostReset_prog s,
    hostReset_symtab s, hostReset_dataPtr s, hostReset_status s, hostReset_log s⟩

/-! ### The load call -/

theorem hostLoad_of_assemble_ok (s : State) {text : List Char} {img : Image} (h : assemble text = .ok img) :
    s.hostLoad (some text) = (s.launch img, none) := by
  simp only [State.hostLoad, h]

/-- A source that cannot be read or does not assemble leaves what a reset leaves, and an error is reported. -/
theorem hostLoad_of_failure (s : State) {source : Option (List Char)}
    (h : source = none ∨ ∃ text e, source = some text ∧ assemble text = .error e) :
    ∃ e, s.hostLoad source = (s.hostReset, some e) := by
  rcases h with rfl | ⟨text, e, rfl, he⟩
  · exact ⟨.fileNotFound, rfl⟩
  · exact ⟨e, by simp only [State.hostLoad, he]⟩

/-- Settles O59: a text that assembles takes the load to the launch state of its image, which has the registers
of a reset and the image's memory and program. -/
theorem loadGivesTheLaunchState : Obligations.LoadGivesTheLaunchState := by
  intro s text img himg
  rw [hostLoad_of_assemble_ok s himg]
  exact ⟨rfl, fun r => (launch_reg s img r).trans (reset_reg r), launch_pc s img, launch_status s img,
    fun a => congrArg (memRead · a) (launch_mem s img), launch_prog s img, launch_log s img⟩

/-- Settles O60: a failed load is a reset call and a report, so the rest is what a reset leaves. -/
theorem failedLoadLeavesThePostResetState : Obligations.FailedLoadLeavesThePostResetState := by
  intro s source hfail
  obtain ⟨e, hload⟩ := hostLoad_of_failure s hfail
  rw [hload]
  exact ⟨Option.some_ne_none e, rfl, hostReset_reg_eq s, fun _ => memRead_hostReset s, hostReset_prog s,
    hostReset_status s, hostReset_log s, hostReset_terminal s⟩

end Sys2Proof.Machine
end
